-- ==== Sys2Proof/Word.lean ====
section
/-! DEFINITION. The word type of the Simple Computer and the numbers of its general registers. -/

namespace Sys2Proof

/-- A word: `XLEN` = `PCLEN` = `ILEN` = 16 bits (00_scope.md R2). Registers, the program counter, data
words, data addresses and instruction words all have this width. -/
abbrev Word := BitVec 16

/-- The number of a general register, 0 to 7 (10_state.md R10). -/
abbrev Reg := Fin 8

end Sys2Proof
end

