-- ==== Sys2Proof/Config.lean ====
section
/-! DEFINITION. The parameters that 00_scope.md R2 fixes for the machine, beside the widths of Word.lean.
The parameters of a run (PROGRAM, RESET_PC, END_PC, initial data) are the fields of `Machine.Launch`. -/

namespace Sys2Proof.Config

/-- The default of `RESET_PC` (00_scope.md R2). UNVERIFIED, log entry 4: the spec marks it as its decision D20;
unsafe where a claim rests on the value. -/
def resetPc : Word := 0x0000#16

/-- `DMEM_WORDS` and `IMEM_WORDS`: each memory has 2^16 word addresses (00_scope.md R2, 20_memory.md R30). -/
def memWords : Nat := 65536

/-- What a data word that nothing has set reads as. DESIGN CHOICE, log entry 3: the spec leaves the value
to the launch (10_state.md R24); unsafe for a claim about runs from `State.reset` only, since every content of
the data memory can be listed. -/
def unlistedWord : Word := 0x0000#16

end Sys2Proof.Config
end

