-- ==== Sys2Proof/Machine/State.lean ====
section
/-! DEFINITION. The whole state of the machine (10_state.md), the reasons a step can stop, the launch a run
starts from (70_reset_and_hazards.md R130), and the state after reset. -/

namespace Sys2Proof.Machine

/-! ### Why a step stops -/

/-- The two model faults; the hardware itself raises no exception (60_exceptions.md R110). A fault records what
the rule names, and the state before the faulting step is the state at the fault (R113). -/
inductive Fault where
  /-- `UndefinedOpcode(pc, IR)`, raised by the fetch and decode of a step, by no instruction: the word at `pc`
  has one of the 109 undefined opcodes (60_exceptions.md R111). Safe: the model stops where the source gives
  the hardware no meaning. -/
  | undefinedOpcode (pc ir : Word)
  /-- `FetchOutsideProgram(pc)`, raised by the fetch of a step, by no instruction: `pc` is not `END_PC` and the
  program has no word there (60_exceptions.md R112). Safe, for the same reason. -/
  | fetchOutsideProgram (pc : Word)
  deriving DecidableEq, Repr

/-- Why the model takes no step. -/
inductive Refusal where
  /-- Raised by `exec` for an instruction that has no meaning yet: none. Safe. -/
  | notModelled (mnemonic : String)
  /-- Raised by `step` when `pc = END_PC`: the run has ended and its final state is the present one
  (70_reset_and_hazards.md R134). DESIGN CHOICE, log entry 7. Safe: nothing is claimed of what follows. -/
  | runEnded
  deriving DecidableEq, Repr

/-! ### Data memory -/

/-- The data memory `DM`: (word address, word) pairs for the words that differ from `Config.unlistedWord`. The
smallest thing an address names is a 16-bit word and there is no byte (20_memory.md R30, R34; log entry 6). -/
abbrev Memory := List (Nat × Word)

/-- Every listed address is above `a`, and the list is in canonical form. -/
def Memory.wfAbove : Memory → Nat → Bool
  | [], _ => true
  | (k, v) :: m, a =>
    decide (a < k) && decide (k < Config.memWords) && decide (v ≠ Config.unlistedWord) && Memory.wfAbove m k

/-- The canonical form: addresses strictly rising and below 2^16, no entry equal to what an unlisted address
reads as. Memories of this form that read the same are the same list. -/
def Memory.wf : Memory → Bool
  | [] => true
  | (k, v) :: m => decide (k < Config.memWords) && decide (v ≠ Config.unlistedWord) && Memory.wfAbove m k

/-! ### Instruction memory -/

/-- `PROGRAM`, the contents of the instruction memory `IM`: a base address and a finite list of words
(20_memory.md R33, 70_reset_and_hazards.md R130). -/
structure Program where
  /-- The address of the first word. -/
  base : Word
  /-- The words at `base`, `base + 1`, and so on. -/
  words : List Word
  deriving DecidableEq, Repr

/-- "the addresses must not wrap past 0xFFFF" (70_reset_and_hazards.md R130). -/
def Program.wf (p : Program) : Bool := decide (p.base.toNat + p.words.length ≤ Config.memWords)

/-- The `END_PC` that R134 takes by convention, base + length ("falling off the end"). -/
def Program.fallOff (p : Program) : Word := p.base + BitVec.ofNat 16 p.words.length

/-! ### The state -/

/-- The state: R, pc, N, Z and DM (10_state.md), and the two parameters of a run that the step reads, the
program and END_PC (log entry 5). There is nothing else (R17, R19, R20, R22). -/
structure State where
  /-- The general registers R[0] to R[7] (10_state.md R10). -/
  regs : Vector Word 8
  /-- The program counter (10_state.md R13). -/
  pc : Word
  /-- The Negative status bit N (10_state.md R16). -/
  n : Bool
  /-- The Zero status bit Z (10_state.md R16). -/
  z : Bool
  /-- The data memory DM (10_state.md R21). -/
  dm : Memory
  /-- The instruction memory IM, which no step changes (10_state.md R21). -/
  im : Program
  /-- END_PC, which no step changes (70_reset_and_hazards.md R134). -/
  endPc : Word
  deriving DecidableEq, Repr

/-! ### Launch and reset -/

/-- The launch a run starts from (70_reset_and_hazards.md R130; 10_state.md R24). What R24 calls unspecified is
here an argument, so that a claim about every launch holds for every such value. -/
structure Launch where
  /-- PROGRAM. -/
  program : Program
  /-- RESET_PC, with the default of R130. -/
  resetPc : Word := Config.resetPc
  /-- END_PC; R134's convention is `program.fallOff`. -/
  endPc : Word
  /-- Initial DM. -/
  dm : Memory
  /-- Initial R[0] to R[7]. -/
  regs : Vector Word 8
  /-- Initial N. -/
  n : Bool
  /-- Initial Z. -/
  z : Bool
  deriving DecidableEq, Repr

/-- What R130 asks of a launch: the program does not wrap; and the initial data is in canonical form. -/
def Launch.wf (l : Launch) : Bool := l.program.wf && l.dm.wf

/-- The state a launch starts from: `pc = RESET_PC` and the rest as the launch gives it
(70_reset_and_hazards.md R130). -/
def State.ofLaunch (l : Launch) : State where
  regs := l.regs
  pc := l.resetPc
  n := l.n
  z := l.z
  dm := l.dm
  im := l.program
  endPc := l.endPc

/-- The empty program at the default RESET_PC. DESIGN CHOICE, log entry 5: a program is loaded from outside. -/
def Program.empty : Program := ⟨Config.resetPc, []⟩

/-- The launch of `State.reset`: no program, registers, status bits and data all zero. DESIGN CHOICE, log
entries 1, 2, 3 and 5: the spec leaves these values to the launch; unsafe for a claim about runs from
`State.reset` only. -/
def Launch.reset : Launch where
  program := Program.empty
  endPc := Program.empty.fallOff
  dm := []
  regs := Vector.replicate 8 0x0000#16
  n := false
  z := false

/-- The machine right after reset (10_state.md R24): `pc` at the default RESET_PC, and everything else at the
value its log entry names. -/
def State.reset : State := State.ofLaunch Launch.reset

end Sys2Proof.Machine
end

