-- ==== Sys2Proof/Machine/Ops.lean ====
section
/-! DEFINITION. The named operations over registers, memories and the program counter.

There is no operation that takes an exception and none that returns from one: the hardware has no exception,
interrupt, trap, vector, saved state or mode (60_exceptions.md R110, R115, R117, R118, R120). The two model
faults are in Fetch.lean and change nothing. -/

namespace Sys2Proof.Machine

/-! ### General registers (10_state.md R10 to R12): all alike, none hardwired -/

/-- `R[r]`. -/
def State.readReg (s : State) (r : Reg) : Word := s.regs.get r

/-- `R[r] <- v`. -/
def State.writeReg (s : State) (r : Reg) (v : Word) : State :=
  { s with regs := s.regs.set r.val v r.isLt }

/-! ### Data memory (20_memory.md R31) -/

/-- The word at an address. An address that nothing lists reads as `Config.unlistedWord`. -/
def Memory.read : Memory → Nat → Word
  | [], _ => Config.unlistedWord
  | (k, v) :: m, a => if k = a then v else Memory.read m a

/-- The memory without an entry for an address. -/
def Memory.erase (m : Memory) (a : Nat) : Memory := m.filter fun c => c.1 != a

/-- The memory with one entry more, before the first higher address. -/
def Memory.insert : Memory → Nat → Word → Memory
  | [], a, v => [(a, v)]
  | (k, w) :: m, a, v => if a < k then (a, v) :: (k, w) :: m else (k, w) :: Memory.insert m a v

/-- The memory with the word at an address replaced, in canonical form: the value an unlisted address reads
as is not listed. -/
def Memory.write (m : Memory) (a : Nat) (v : Word) : Memory :=
  if v = Config.unlistedWord then m.erase a else (m.erase a).insert a v

/-- `MemRead(a, 1)`: one word of DM; every 16-bit address exists (20_memory.md R31). -/
def State.memRead (s : State) (a : Word) : Word := s.dm.read a.toNat

/-- `MemWrite(a, 1, v)`: one word of DM; every other word unchanged (20_memory.md R31). -/
def State.memWrite (s : State) (a v : Word) : State := { s with dm := s.dm.write a.toNat v }

/-! ### Instruction memory (20_memory.md R32, R33) -/

/-- The word a program has at an address, if the address is one of base to base + length - 1. The list is not
wrapped past 0xFFFF (log entry 9). -/
def Program.read (p : Program) (a : Word) : Option Word :=
  if p.base.toNat ≤ a.toNat then p.words[a.toNat - p.base.toNat]? else none

/-- The program with the word at an address replaced; where the program has no word there, the program that
has that one word only. Used to place a program from outside, by no instruction (log entry 8). -/
def Program.place (p : Program) (a w : Word) : Program :=
  match p.read a with
  | some _ => { p with words := p.words.set (a.toNat - p.base.toNat) w }
  | none => ⟨a, [w]⟩

/-- `IMemRead(a)`: the instruction word at an address, or none (20_memory.md R32, R33). -/
def State.iMemRead (s : State) (a : Word) : Option Word := s.im.read a

/-! ### Program counter (10_state.md R14) -/

/-- `pc <- t`. -/
def State.setPc (s : State) (t : Word) : State := { s with pc := t }

/-- `pc <- pc + 1` modulo 2^16 (§Footnote; 10_state.md R14). -/
def State.nextPc (s : State) : State := s.setPc (s.pc + 1)

end Sys2Proof.Machine
end

