-- ==== Sys2Proof/Machine/Operands.lean ====
section
/-! DEFINITION. The operand forms: registers, the zero-filled immediate, the register-indirect address and the
sign-extended branch offset. -/

namespace Sys2Proof.Machine

/-- `zext_16(v)` of a 3-bit field (00_scope.md R5). -/
def zext16 (f : BitVec 3) : Word := f.setWidth 16

/-- `sext_16(v)` of a 6-bit field (00_scope.md R5). -/
def sext16 (f : BitVec 6) : Word := f.signExtend 16

/-- The immediate of LDI and ADI, `zext_16(IR[2:0])` (30_encoding.md R55), of the field that encodes `op`. -/
def immediate (op : Nat) : Word := zext16 (BitVec.ofNat 3 op)

/-- The offset of BRZ and BRN, `sext_16(AD)` (30_encoding.md R56), of the field that encodes `ad`. -/
def branchOffset (ad : Int) : Word := sext16 (BitVec.ofInt 6 ad)

/-- The target of a taken branch: the branch's own address plus the offset, modulo 2^16 (43_branch_jump.md
R100). UNVERIFIED, log entry 12: the spec marks the base of the offset as its decision D17; unsafe. -/
def State.branchTarget (s : State) (ad : Int) : Word := s.pc + branchOffset ad

/-- The data address of LD and ST: the content of R[ra], no offset and no scaling (42_load_store.md R97). -/
def State.dataAddress (s : State) (ra : Reg) : Word := s.readReg ra

end Sys2Proof.Machine
end

