-- ==== Sys2Proof/Machine/Flags.lean ====
section
/-! DEFINITION. The status bits N and Z (10_state.md R16 to R18), the values they are computed from, and the
two ways an instruction ends with respect to them. -/

namespace Sys2Proof.Machine

/-- N: bit 15 of the value (10_state.md R16; log entry 18). Also the test `R[SA] < 0` of BRN (R102). -/
def negFlag (v : Word) : Bool := v.msb

/-- Z: the value is 0x0000 (10_state.md R16; log entry 18). Also the test `R[SA] = 0` of BRZ (R101). -/
def zeroFlag (v : Word) : Bool := v == 0x0000#16

/-- `N <- v[15]; Z <- (v = 0)` (10_state.md R16). -/
def State.setNZ (s : State) (v : Word) : State := { s with n := negFlag v, z := zeroFlag v }

/-- `v = 0b0 ‖ w[15:1]`: right by one, 0 enters, bit 0 is lost (40_register_alu.md R81). UNVERIFIED, log entry
15: the spec marks amount and fill as its decision D9; unsafe. -/
def shiftRight (w : Word) : Word := w >>> 1

/-- `v = w[14:0] ‖ 0b0`: left by one, 0 enters, bit 15 is lost (40_register_alu.md R82). UNVERIFIED, log entry
15: the spec marks amount and fill as its decision D9; unsafe. -/
def shiftLeft (w : Word) : Word := w <<< 1

/-- The end of an instruction with Status Bits "N, Z" and a register result (40_register_alu.md R70): the
result to R[rd], the status bits from it, and `pc + 1`. -/
def State.resultNZ (s : State) (rd : Reg) (v : Word) : State := ((s.writeReg rd v).setNZ v).nextPc

/-- The end of an instruction with an empty Status Bits cell and a register result (40_register_alu.md R70,
10_state.md R18; log entry 19): the result to R[rd], N and Z kept, and `pc + 1`. -/
def State.resultKeep (s : State) (rd : Reg) (v : Word) : State := (s.writeReg rd v).nextPc

/-- The end of a conditional branch on the value `v` (43_branch_jump.md R101, R102): N and Z from the tested
value, taken or not (log entry 20), and the target or `pc + 1`. -/
def State.branchIf (s : State) (taken : Bool) (v : Word) (ad : Int) : State :=
  (s.setNZ v).setPc (if taken then s.branchTarget ad else s.pc + 1)

end Sys2Proof.Machine
end

