-- ==== Sys2Proof/Syntax.lean ====
section
/-! DEFINITION. The instructions of the Simple Computer: one constructor for each of the 19 rows of the
opcode table (30_encoding.md R58), in its order. -/

namespace Sys2Proof

/-- An instruction with its assembler operands, in the order of 30_encoding.md R63: `rd`, `ra`, `rb` are
register numbers, `op` the unsigned immediate of format (b), `ad` the signed word offset of format (c). The
fields an instruction does not use are no part of it (30_encoding.md R60). Which `op` and `ad` are in range is
`Instr.wellFormed`. -/
inductive Instr where
  /-- Move A: R[rd] <- R[ra] (R71). -/
  | mova (rd ra : Reg)
  /-- Increment: R[rd] <- R[ra] + 1 (R72). -/
  | inc (rd ra : Reg)
  /-- Add: R[rd] <- R[ra] + R[rb] (R73). -/
  | add (rd ra rb : Reg)
  /-- Subtract: R[rd] <- R[ra] - R[rb] (R74). -/
  | sub (rd ra rb : Reg)
  /-- Decrement: R[rd] <- R[ra] - 1 (R75). -/
  | dec (rd ra : Reg)
  /-- Bitwise AND (R76). -/
  | and (rd ra rb : Reg)
  /-- Bitwise OR (R77). -/
  | or (rd ra rb : Reg)
  /-- Bitwise exclusive OR (R78). -/
  | xor (rd ra rb : Reg)
  /-- Bitwise complement of R[ra] (R79). -/
  | not (rd ra : Reg)
  /-- Move B: R[rd] <- R[rb] (R80). -/
  | movb (rd rb : Reg)
  /-- Shift R[rb] right by one (R81). -/
  | shr (rd rb : Reg)
  /-- Shift R[rb] left by one (R82). -/
  | shl (rd rb : Reg)
  /-- Load Immediate (R90). -/
  | ldi (rd : Reg) (op : Nat)
  /-- Add Immediate (R91). -/
  | adi (rd ra : Reg) (op : Nat)
  /-- Load: R[rd] <- DM[R[ra]] (R95). -/
  | ld (rd ra : Reg)
  /-- Store: DM[R[ra]] <- R[rb] (R96). -/
  | st (ra rb : Reg)
  /-- Branch on Zero (R101). -/
  | brz (ra : Reg) (ad : Int)
  /-- Branch on Negative (R102). -/
  | brn (ra : Reg) (ad : Int)
  /-- Jump to R[ra] (R103). -/
  | jmp (ra : Reg)
  deriving DecidableEq, Repr

end Sys2Proof
end

