-- ==== Sys2Proof/Machine/Alu.lean ====
section
/-! DEFINITION. The meanings of the twelve register-format instructions (40_register_alu.md). Sources are read
before anything is written, so a destination may be a source (10_state.md R12). None can stop (R70). -/

namespace Sys2Proof.Machine

/-- MOVA (R71). -/
def execMova (rd ra : Reg) (s : State) : Host.Outcome State Fault Refusal :=
  .next (s.resultNZ rd (s.readReg ra))

/-- INC (R72). -/
def execInc (rd ra : Reg) (s : State) : Host.Outcome State Fault Refusal :=
  .next (s.resultNZ rd (s.readReg ra + 1))

/-- ADD (R73). -/
def execAdd (rd ra rb : Reg) (s : State) : Host.Outcome State Fault Refusal :=
  .next (s.resultNZ rd (s.readReg ra + s.readReg rb))

/-- SUB (R74): minuend R[ra], subtrahend R[rb]. -/
def execSub (rd ra rb : Reg) (s : State) : Host.Outcome State Fault Refusal :=
  .next (s.resultNZ rd (s.readReg ra - s.readReg rb))

/-- DEC (R75). -/
def execDec (rd ra : Reg) (s : State) : Host.Outcome State Fault Refusal :=
  .next (s.resultNZ rd (s.readReg ra - 1))

/-- AND (R76). -/
def execAnd (rd ra rb : Reg) (s : State) : Host.Outcome State Fault Refusal :=
  .next (s.resultNZ rd (s.readReg ra &&& s.readReg rb))

/-- OR (R77). -/
def execOr (rd ra rb : Reg) (s : State) : Host.Outcome State Fault Refusal :=
  .next (s.resultNZ rd (s.readReg ra ||| s.readReg rb))

/-- XOR (R78). -/
def execXor (rd ra rb : Reg) (s : State) : Host.Outcome State Fault Refusal :=
  .next (s.resultNZ rd (s.readReg ra ^^^ s.readReg rb))

/-- NOT (R79): the operand is R[ra]. -/
def execNot (rd ra : Reg) (s : State) : Host.Outcome State Fault Refusal :=
  .next (s.resultNZ rd (~~~ s.readReg ra))

/-- MOVB (R80): the operand is R[rb]; N and Z are kept. -/
def execMovb (rd rb : Reg) (s : State) : Host.Outcome State Fault Refusal :=
  .next (s.resultKeep rd (s.readReg rb))

/-- SHR (R81): the operand is R[rb]; N and Z are kept. -/
def execShr (rd rb : Reg) (s : State) : Host.Outcome State Fault Refusal :=
  .next (s.resultKeep rd (shiftRight (s.readReg rb)))

/-- SHL (R82): the operand is R[rb]; N and Z are kept. -/
def execShl (rd rb : Reg) (s : State) : Host.Outcome State Fault Refusal :=
  .next (s.resultKeep rd (shiftLeft (s.readReg rb)))

end Sys2Proof.Machine
end

