-- ==== Sys2Proof/Machine/Branch.lean ====
section
/-! DEFINITION. The meanings of BRZ, BRN and JMP (43_branch_jump.md). -/

namespace Sys2Proof.Machine

/-- BRZ (R101): the test is on R[ra] itself, not on a stored Z. -/
def execBrz (ra : Reg) (ad : Int) (s : State) : Host.Outcome State Fault Refusal :=
  .next (s.branchIf (zeroFlag (s.readReg ra)) (s.readReg ra) ad)

/-- BRN (R102): the test is bit 15 of R[ra] itself, not a stored N. -/
def execBrn (ra : Reg) (ad : Int) (s : State) : Host.Outcome State Fault Refusal :=
  .next (s.branchIf (negFlag (s.readReg ra)) (s.readReg ra) ad)

/-- JMP (R103): absolute; N and Z kept. UNVERIFIED, log entry 11: that the PC is not also incremented is the
spec's resolution of conflict C1, its decision D16; unsafe. -/
def execJmp (ra : Reg) (s : State) : Host.Outcome State Fault Refusal :=
  .next (s.setPc (s.readReg ra))

end Sys2Proof.Machine
end

