-- ==== Sys2Proof/Machine/Immediate.lean ====
section
/-! DEFINITION. The meanings of LDI and ADI (41_immediate.md). -/

namespace Sys2Proof.Machine

/-- LDI (R90): N and Z are kept. -/
def execLdi (rd : Reg) (op : Nat) (s : State) : Host.Outcome State Fault Refusal :=
  .next (s.resultKeep rd (immediate op))

/-- ADI (R91). -/
def execAdi (rd ra : Reg) (op : Nat) (s : State) : Host.Outcome State Fault Refusal :=
  .next (s.resultNZ rd (s.readReg ra + immediate op))

end Sys2Proof.Machine
end

