-- ==== Sys2Proof/Machine/LoadStore.lean ====
section
/-! DEFINITION. The meanings of LD and ST (42_load_store.md), the only instructions that touch data memory. -/

namespace Sys2Proof.Machine

/-- LD (R95): the word at the address in R[ra], N and Z kept. -/
def execLd (rd ra : Reg) (s : State) : Host.Outcome State Fault Refusal :=
  .next (s.resultKeep rd (s.memRead (s.dataAddress ra)))

/-- ST (R96): the address is in R[ra], the data in R[rb]; no register written, N and Z kept. -/
def execSt (ra rb : Reg) (s : State) : Host.Outcome State Fault Refusal :=
  .next (s.memWrite (s.dataAddress ra) (s.readReg rb)).nextPc

end Sys2Proof.Machine
end

