-- ==== Sys2Proof/WellFormed.lean ====
section
/-! DEFINITION. Which instructions an assembler accepts: the operand ranges of 30_encoding.md R63. -/

namespace Sys2Proof

/-- OP is an unsigned number 0 to 7 (30_encoding.md R55, R63). -/
def opInRange (op : Nat) : Bool := decide (op < 8)

/-- AD is a signed number -32 to 31 (30_encoding.md R56, R63). -/
def adInRange (ad : Int) : Bool := decide (-32 ≤ ad) && decide (ad ≤ 31)

/-- Every operand is in its range: "An operand outside its range is an assembly error, never truncated"
(30_encoding.md R63). Register operands are in range by their type. -/
def Instr.wellFormed : Instr → Bool
  | .mova _ _ | .inc _ _ | .add _ _ _ | .sub _ _ _ | .dec _ _ => true
  | .and _ _ _ | .or _ _ _ | .xor _ _ _ | .not _ _ => true
  | .movb _ _ | .shr _ _ | .shl _ _ => true
  | .ldi _ op => opInRange op
  | .adi _ _ op => opInRange op
  | .ld _ _ | .st _ _ => true
  | .brz _ ad => adInRange ad
  | .brn _ ad => adInRange ad
  | .jmp _ => true

end Sys2Proof
end

