-- ==== Sys2Proof/Decode.lean ====
section
/-! DEFINITION. The decoder, total on 16-bit words, and the encoder (30_encoding.md R50 to R61). -/

namespace Sys2Proof

/-! ### The opcode map -/

/-- The 19 opcodes by name (30_encoding.md R58), in the order of the opcode table. -/
inductive Opcode where
  | mova | inc | add | sub | dec | and | or | xor | not | movb | shr | shl
  | ldi | adi | ld | st | brz | brn | jmp
  deriving DecidableEq, Repr

/-- The seven opcode bits of each instruction (30_encoding.md R58). -/
def Opcode.bits : Opcode → BitVec 7
  | .mova => 0b0000000#7
  | .inc  => 0b0000001#7
  | .add  => 0b0000010#7
  | .sub  => 0b0000101#7
  | .dec  => 0b0000110#7
  | .and  => 0b0001000#7
  | .or   => 0b0001001#7
  | .xor  => 0b0001010#7
  | .not  => 0b0001011#7
  | .movb => 0b0001100#7
  | .shr  => 0b0001101#7
  | .shl  => 0b0001110#7
  | .ldi  => 0b1001100#7
  | .adi  => 0b1000010#7
  | .ld   => 0b0010000#7
  | .st   => 0b0100000#7
  | .brz  => 0b1100000#7
  | .brn  => 0b1100001#7
  | .jmp  => 0b1110000#7

/-- All the opcodes, in the order of the table. -/
def Opcode.all : List Opcode :=
  [.mova, .inc, .add, .sub, .dec, .and, .or, .xor, .not, .movb, .shr, .shl,
   .ldi, .adi, .ld, .st, .brz, .brn, .jmp]

/-- The opcode with the given bits: all seven bits are matched and the pattern is never extended
(30_encoding.md R57, R59, R61). -/
def Opcode.ofBits (b : BitVec 7) : Option Opcode :=
  Opcode.all.find? fun o => o.bits == b

/-! ### The fields of an instruction word (30_encoding.md R51) -/

/-- `IR[15:9]`. -/
def opcodeField (ir : Word) : BitVec 7 := ir.extractLsb' 9 7

/-- DR, `IR[8:6]`; in format (c) the left half of AD. -/
def drField (ir : Word) : BitVec 3 := ir.extractLsb' 6 3

/-- SA, `IR[5:3]`. -/
def saField (ir : Word) : BitVec 3 := ir.extractLsb' 3 3

/-- SB or OP, `IR[2:0]`; in format (c) the right half of AD. -/
def sbField (ir : Word) : BitVec 3 := ir.extractLsb' 0 3

/-- A word from its four fields, the opcode most significant (30_encoding.md R51). -/
def pack (op : BitVec 7) (dr sa sb : BitVec 3) : Word := (op ++ dr ++ sa ++ sb).cast (by rfl)

/-- The register a 3-bit field names; all eight numbers are legal (30_encoding.md section 5). -/
def regOfField (f : BitVec 3) : Reg := ⟨f.toNat, f.isLt⟩

/-- The 3-bit field that names a register. -/
def fieldOfReg (r : Reg) : BitVec 3 := BitVec.ofNat 3 r.val

/-- `AD = IR[8:6] ‖ IR[2:0]`, six bits (30_encoding.md R56). UNVERIFIED, log entry 13: the spec marks the
make-up of AD as its decision D12; unsafe. -/
def adField (left right : BitVec 3) : BitVec 6 := (left ++ right).cast (by rfl)

/-- AD as a signed number, `IR[8]` its sign bit (30_encoding.md R56). -/
def adOfFields (left right : BitVec 3) : Int := (adField left right).toInt

/-- The left half of AD, `AD[5:3]` (43_branch_jump.md R101). -/
def adLeft (ad : Int) : BitVec 3 := (BitVec.ofInt 6 ad).extractLsb' 3 3

/-- The right half of AD, `AD[2:0]` (43_branch_jump.md R101). -/
def adRight (ad : Int) : BitVec 3 := (BitVec.ofInt 6 ad).extractLsb' 0 3

/-! ### Decoding -/

/-- Why a word is no instruction. There is one reason (30_encoding.md section 5). -/
inductive DecodeError where
  /-- `Undefined(op)`: the opcode is not one of the 19 (30_encoding.md R57, R61). -/
  | undefinedOpcode (op : BitVec 7)
  deriving DecidableEq, Repr

/-- The instruction of an opcode with the fields DR, SA, SB. A field that the instruction's Format cell does
not name is dropped (30_encoding.md R52 to R54, R60; log entry 14). -/
def Opcode.instr (o : Opcode) (dr sa sb : BitVec 3) : Instr :=
  match o with
  | .mova => .mova (regOfField dr) (regOfField sa)
  | .inc  => .inc (regOfField dr) (regOfField sa)
  | .add  => .add (regOfField dr) (regOfField sa) (regOfField sb)
  | .sub  => .sub (regOfField dr) (regOfField sa) (regOfField sb)
  | .dec  => .dec (regOfField dr) (regOfField sa)
  | .and  => .and (regOfField dr) (regOfField sa) (regOfField sb)
  | .or   => .or (regOfField dr) (regOfField sa) (regOfField sb)
  | .xor  => .xor (regOfField dr) (regOfField sa) (regOfField sb)
  | .not  => .not (regOfField dr) (regOfField sa)
  | .movb => .movb (regOfField dr) (regOfField sb)
  | .shr  => .shr (regOfField dr) (regOfField sb)
  | .shl  => .shl (regOfField dr) (regOfField sb)
  | .ldi  => .ldi (regOfField dr) sb.toNat
  | .adi  => .adi (regOfField dr) (regOfField sa) sb.toNat
  | .ld   => .ld (regOfField dr) (regOfField sa)
  | .st   => .st (regOfField sa) (regOfField sb)
  | .brz  => .brz (regOfField sa) (adOfFields dr sb)
  | .brn  => .brn (regOfField sa) (adOfFields dr sb)
  | .jmp  => .jmp (regOfField sa)

/-- Decoding looks at `IR[15:9]` only and is total on 16-bit words (30_encoding.md R57). -/
def decode (ir : Word) : Except DecodeError Instr :=
  match Opcode.ofBits (opcodeField ir) with
  | some o => .ok (o.instr (drField ir) (saField ir) (sbField ir))
  | none => .error (.undefinedOpcode (opcodeField ir))

/-! ### Encoding -/

/-- The opcode of an instruction (30_encoding.md R58). -/
def Instr.opcode : Instr → Opcode
  | .mova _ _ => .mova
  | .inc _ _ => .inc
  | .add _ _ _ => .add
  | .sub _ _ _ => .sub
  | .dec _ _ => .dec
  | .and _ _ _ => .and
  | .or _ _ _ => .or
  | .xor _ _ _ => .xor
  | .not _ _ => .not
  | .movb _ _ => .movb
  | .shr _ _ => .shr
  | .shl _ _ => .shl
  | .ldi _ _ => .ldi
  | .adi _ _ _ => .adi
  | .ld _ _ => .ld
  | .st _ _ => .st
  | .brz _ _ => .brz
  | .brn _ _ => .brn
  | .jmp _ => .jmp

/-- The word of a well-formed instruction; the encoder writes 0 into the fields the instruction does not use
(30_encoding.md R60). -/
def encode : Instr → Word
  | .mova rd ra => pack Opcode.mova.bits (fieldOfReg rd) (fieldOfReg ra) 0#3
  | .inc rd ra => pack Opcode.inc.bits (fieldOfReg rd) (fieldOfReg ra) 0#3
  | .add rd ra rb => pack Opcode.add.bits (fieldOfReg rd) (fieldOfReg ra) (fieldOfReg rb)
  | .sub rd ra rb => pack Opcode.sub.bits (fieldOfReg rd) (fieldOfReg ra) (fieldOfReg rb)
  | .dec rd ra => pack Opcode.dec.bits (fieldOfReg rd) (fieldOfReg ra) 0#3
  | .and rd ra rb => pack Opcode.and.bits (fieldOfReg rd) (fieldOfReg ra) (fieldOfReg rb)
  | .or rd ra rb => pack Opcode.or.bits (fieldOfReg rd) (fieldOfReg ra) (fieldOfReg rb)
  | .xor rd ra rb => pack Opcode.xor.bits (fieldOfReg rd) (fieldOfReg ra) (fieldOfReg rb)
  | .not rd ra => pack Opcode.not.bits (fieldOfReg rd) (fieldOfReg ra) 0#3
  | .movb rd rb => pack Opcode.movb.bits (fieldOfReg rd) 0#3 (fieldOfReg rb)
  | .shr rd rb => pack Opcode.shr.bits (fieldOfReg rd) 0#3 (fieldOfReg rb)
  | .shl rd rb => pack Opcode.shl.bits (fieldOfReg rd) 0#3 (fieldOfReg rb)
  | .ldi rd op => pack Opcode.ldi.bits (fieldOfReg rd) 0#3 (BitVec.ofNat 3 op)
  | .adi rd ra op => pack Opcode.adi.bits (fieldOfReg rd) (fieldOfReg ra) (BitVec.ofNat 3 op)
  | .ld rd ra => pack Opcode.ld.bits (fieldOfReg rd) (fieldOfReg ra) 0#3
  | .st ra rb => pack Opcode.st.bits 0#3 (fieldOfReg ra) (fieldOfReg rb)
  | .brz ra ad => pack Opcode.brz.bits (adLeft ad) (fieldOfReg ra) (adRight ad)
  | .brn ra ad => pack Opcode.brn.bits (adLeft ad) (fieldOfReg ra) (adRight ad)
  | .jmp ra => pack Opcode.jmp.bits 0#3 (fieldOfReg ra) 0#3

/-- The bits of a word that an instruction with the given opcode uses: the opcode and the fields its Format
cell names (30_encoding.md R52 to R54; the complement of the `x` bits of the table's `encoding` strings). -/
def Opcode.usedMask : Opcode → Word
  | .mova | .inc | .dec | .not | .ld => 0b1111111111111000#16
  | .movb | .shr | .shl | .ldi => 0b1111111111000111#16
  | .add | .sub | .and | .or | .xor | .adi | .brz | .brn => 0b1111111111111111#16
  | .st => 0b1111111000111111#16
  | .jmp => 0b1111111000111000#16

/-! ### The opcode table's numbering -/

/-- The word of an opcode-table instruction of `nbits` bits: every instruction is one 16-bit word, bit 0 its
least significant bit; the bits above `nbits` are 0 (30_encoding.md R3 notation, R50). -/
def tableWord (nbits w : Nat) : Word := BitVec.ofNat 16 (w % 2 ^ nbits)

/-- What the decoder reads from a word numbered as spec/opcode_table.json numbers it. -/
def decodeTableWord (nbits w : Nat) : Option Instr :=
  match decode (tableWord nbits w) with
  | .ok i => some i
  | .error _ => none

end Sys2Proof
end

