-- ==== Sys2Proof/Machine/Fetch.lean ====
section
/-! DEFINITION. The fetch and decode of a step, with the two model faults (60_exceptions.md R111, R112). -/

namespace Sys2Proof.Machine

/-- The run has ended: `pc = END_PC`, tested before each fetch (70_reset_and_hazards.md R134; log entry 21). -/
def State.atEnd (s : State) : Bool := s.pc == s.endPc

/-- The instruction at `pc`, or the model fault: first the fetch, then the decode (60_exceptions.md R116). -/
def State.fetchInstr (s : State) : Except Fault Instr :=
  match s.iMemRead s.pc with
  | none => .error (.fetchOutsideProgram s.pc)
  | some ir =>
    match decode ir with
    | .ok i => .ok i
    | .error _ => .error (.undefinedOpcode s.pc ir)

/-- The state with a word placed from outside where the next step fetches, END_PC moved out of the way if it
is there (log entry 8). -/
def State.placeWord (s : State) (w : Word) : State :=
  { s with im := s.im.place s.pc w, endPc := if s.endPc = s.pc then s.pc + 1 else s.endPc }

end Sys2Proof.Machine
end

