-- ==== Sys2Proof/Machine/Step.lean ====
section
/-! DEFINITION. One step of the machine (10_state.md R23). -/

namespace Sys2Proof.Machine

/-- One step executes one instruction, wholly (10_state.md R23): the end-of-run test, then the fetch, then the
decode, then the instruction. -/
def step (s : State) : Host.Outcome State Fault Refusal :=
  if s.atEnd then .refused .runEnded
  else
    match s.fetchInstr with
    | .error f => .fault f
    | .ok i => exec i s

/-- The state with an instruction word placed where the next step fetches, its bits numbered as
spec/opcode_table.json numbers them (log entry 8). It stands for the load of a program from outside. -/
def State.withFetchWord (s : State) (nbits w : Nat) : State := s.placeWord (tableWord nbits w)

end Sys2Proof.Machine
end

