-- ==== Sys2Proof/Machine/Assembly.lean ====
section
/-! DEFINITION. The assembler form of an instruction: its mnemonic and its operands in order (30_encoding.md
R63; log entry 27): which operands an instruction has, their order, how a line is spelled, and which operands
are refused. -/

namespace Sys2Proof.Machine

/-- An operand as the assembler reads it: a register `R<n>` or a decimal number (30_encoding.md R63). -/
inductive AsmOperand where
  | reg (n : Nat)
  | num (z : Int)
  deriving DecidableEq, Repr

/-- The mnemonic of an instruction, in upper case (30_encoding.md R58, R63). -/
def mnemonicOf : Opcode → String
  | .mova => "MOVA" | .inc => "INC" | .add => "ADD" | .sub => "SUB" | .dec => "DEC"
  | .and => "AND" | .or => "OR" | .xor => "XOR" | .not => "NOT"
  | .movb => "MOVB" | .shr => "SHR" | .shl => "SHL"
  | .ldi => "LDI" | .adi => "ADI" | .ld => "LD" | .st => "ST"
  | .brz => "BRZ" | .brn => "BRN" | .jmp => "JMP"

/-- A register operand. -/
def asmReg (r : Reg) : AsmOperand := .reg r.val

/-- The operands of an instruction in the order they are written (30_encoding.md R63). -/
def asmOperands : Instr → List AsmOperand
  | .mova rd ra | .inc rd ra | .dec rd ra | .not rd ra | .ld rd ra => [asmReg rd, asmReg ra]
  | .add rd ra rb | .sub rd ra rb | .and rd ra rb | .or rd ra rb | .xor rd ra rb =>
    [asmReg rd, asmReg ra, asmReg rb]
  | .movb rd rb | .shr rd rb | .shl rd rb => [asmReg rd, asmReg rb]
  | .ldi rd op => [asmReg rd, .num op]
  | .adi rd ra op => [asmReg rd, asmReg ra, .num op]
  | .st ra rb => [asmReg ra, asmReg rb]
  | .brz ra ad | .brn ra ad => [asmReg ra, .num ad]
  | .jmp ra => [asmReg ra]

/-- An operand spelled out: `R0` to `R7`, or a decimal number (30_encoding.md R63). -/
def asmOperandText : AsmOperand → String
  | .reg n => "R" ++ toString n
  | .num z => toString z

/-- The operands separated by commas (30_encoding.md R63). -/
def asmOperandsText : List AsmOperand → String
  | [] => ""
  | [x] => asmOperandText x
  | x :: xs => asmOperandText x ++ ", " ++ asmOperandsText xs

/-- The assembler line of an instruction (30_encoding.md R63). -/
def asmLine (i : Instr) : String := mnemonicOf i.opcode ++ " " ++ asmOperandsText (asmOperands i)

/-- A register operand read, `R0` to `R7` only. -/
def readAsmReg : AsmOperand → Option Reg
  | .reg n => if h : n < 8 then some ⟨n, h⟩ else none
  | .num _ => none

/-- An OP operand read: an unsigned number. -/
def readAsmOp : AsmOperand → Option Nat
  | .num (.ofNat n) => some n
  | _ => none

/-- An AD operand read: a signed number. -/
def readAsmAd : AsmOperand → Option Int
  | .num z => some z
  | .reg _ => none

/-- Two register operands. -/
def readTwo (f : Reg → Reg → Instr) (x y : AsmOperand) : Option Instr :=
  (readAsmReg x).bind fun r => (readAsmReg y).map fun q => f r q

/-- Three register operands. -/
def readThree (f : Reg → Reg → Reg → Instr) (x y w : AsmOperand) : Option Instr :=
  (readAsmReg x).bind fun r => (readAsmReg y).bind fun q => (readAsmReg w).map fun p => f r q p

/-- The instruction of a mnemonic and its operands, ranges not yet checked. -/
def readAsm : Opcode → List AsmOperand → Option Instr
  | .mova, [x, y] => readTwo .mova x y
  | .inc, [x, y] => readTwo .inc x y
  | .add, [x, y, w] => readThree .add x y w
  | .sub, [x, y, w] => readThree .sub x y w
  | .dec, [x, y] => readTwo .dec x y
  | .and, [x, y, w] => readThree .and x y w
  | .or, [x, y, w] => readThree .or x y w
  | .xor, [x, y, w] => readThree .xor x y w
  | .not, [x, y] => readTwo .not x y
  | .movb, [x, y] => readTwo .movb x y
  | .shr, [x, y] => readTwo .shr x y
  | .shl, [x, y] => readTwo .shl x y
  | .ldi, [x, y] => (readAsmReg x).bind fun r => (readAsmOp y).map fun k => .ldi r k
  | .adi, [x, y, w] =>
    (readAsmReg x).bind fun r => (readAsmReg y).bind fun q => (readAsmOp w).map fun k => .adi r q k
  | .ld, [x, y] => readTwo .ld x y
  | .st, [x, y] => readTwo .st x y
  | .brz, [x, y] => (readAsmReg x).bind fun r => (readAsmAd y).map fun k => .brz r k
  | .brn, [x, y] => (readAsmReg x).bind fun r => (readAsmAd y).map fun k => .brn r k
  | .jmp, [x] => (readAsmReg x).map fun r => .jmp r
  | _, _ => none

/-- The assembler: "An operand outside its range is an assembly error, never truncated" (30_encoding.md
R63). -/
def assemble (o : Opcode) (ops : List AsmOperand) : Option Instr :=
  (readAsm o ops).filter Instr.wellFormed

end Sys2Proof.Machine
end

