-- ==== Sys2Proof/Safety.lean ====
section
/-! DEFINITION. The terms in which claims speak of the machine: its invariant, runs and their end, the
registers an instruction reads and writes, and what a step leaves as it was. -/

namespace Sys2Proof

/-! ### Registers an instruction reads and writes (10_state.md R12) -/

/-- The registers an instruction reads (10_state.md R12). -/
def Instr.reads : Instr → List Reg
  | .mova _ ra | .inc _ ra | .dec _ ra | .not _ ra | .adi _ ra _ | .ld _ ra => [ra]
  | .add _ ra rb | .sub _ ra rb | .and _ ra rb | .or _ ra rb | .xor _ ra rb => [ra, rb]
  | .movb _ rb | .shr _ rb | .shl _ rb => [rb]
  | .ldi _ _ => []
  | .st ra rb => [ra, rb]
  | .brz ra _ | .brn ra _ | .jmp ra => [ra]

/-- The register an instruction writes, if any (10_state.md R12). -/
def Instr.writes : Instr → Option Reg
  | .mova rd _ | .inc rd _ | .dec rd _ | .not rd _ | .adi rd _ _ | .ld rd _ => some rd
  | .add rd _ _ | .sub rd _ _ | .and rd _ _ | .or rd _ _ | .xor rd _ _ => some rd
  | .movb rd _ | .shr rd _ | .shl rd _ => some rd
  | .ldi rd _ => some rd
  | .st _ _ | .brz _ _ | .brn _ _ | .jmp _ => none

/-- Whether an instruction's Status Bits cell is "N, Z" (10_state.md R18). -/
def Instr.writesNZ : Instr → Bool
  | .mova _ _ | .inc _ _ | .add _ _ _ | .sub _ _ _ | .dec _ _ => true
  | .and _ _ _ | .or _ _ _ | .xor _ _ _ | .not _ _ => true
  | .adi _ _ _ | .brz _ _ | .brn _ _ => true
  | .movb _ _ | .shr _ _ | .shl _ _ | .ldi _ _ | .ld _ _ | .st _ _ | .jmp _ => false

end Sys2Proof

namespace Sys2Proof.Machine

/-! ### The invariant -/

/-- What every reachable state satisfies: the data memory is in canonical form and the program does not wrap
past 0xFFFF (70_reset_and_hazards.md R130). -/
def State.Inv (s : State) : Prop := s.dm.wf = true ∧ s.im.wf = true

/-! ### Runs -/

/-- `k` steps from a state, stopping at the first fault or refusal. -/
def run (k : Nat) (s : State) : Host.Outcome State Fault Refusal := Host.Core.run Sys2Proof.core k s

/-- The instruction the next step executes, if it executes one (10_state.md R23). -/
def State.nextInstr (s : State) : Option Instr :=
  if s.atEnd then none
  else
    match s.fetchInstr with
    | .error _ => none
    | .ok i => some i

/-- A safe run: it never reaches a model fault (60_exceptions.md R113). -/
def State.Safe (s : State) : Prop := ∀ k f, run k s ≠ .fault f

/-- A run that ends: after `k` steps the state is `t` and `pc = END_PC` (70_reset_and_hazards.md R134). -/
def State.EndsIn (s : State) (k : Nat) (t : State) : Prop := run k s = .next t ∧ t.pc = t.endPc

/-! ### What a step does and what it leaves as it was -/

/-- `R[rd]` holds `v` and every other register is as before. -/
def WritesOnlyReg (s t : State) (rd : Reg) (v : Word) : Prop :=
  t.readReg rd = v ∧ ∀ r, r ≠ rd → t.readReg r = s.readReg r

/-- Every register is as before. -/
def KeepsRegs (s t : State) : Prop := ∀ r, t.readReg r = s.readReg r

/-- The data word at `a` holds `v` and every other data word is as before. -/
def WritesOnlyMem (s t : State) (a v : Word) : Prop :=
  t.memRead a = v ∧ ∀ b, b ≠ a → t.memRead b = s.memRead b

/-- Every data word is as before. -/
def KeepsMem (s t : State) : Prop := ∀ a, t.memRead a = s.memRead a

/-- N is bit 15 of `v`, and Z says whether `v` is zero (10_state.md R16). -/
def SetsNZ (t : State) (v : Word) : Prop := t.n = v.getLsbD 15 ∧ (t.z = true ↔ v = 0x0000#16)

/-- N and Z are as before. -/
def KeepsNZ (s t : State) : Prop := t.n = s.n ∧ t.z = s.z

/-- The program and END_PC are as before (10_state.md R21, 20_memory.md R32). -/
def KeepsLaunch (s t : State) : Prop := t.im = s.im ∧ t.endPc = s.endPc

/-- A register result with the status bits from it, `pc + 1`, and nothing else (40_register_alu.md R70). -/
def RegResultNZ (s t : State) (rd : Reg) (v : Word) : Prop :=
  WritesOnlyReg s t rd v ∧ SetsNZ t v ∧ t.pc = s.pc + 1 ∧ KeepsMem s t ∧ KeepsLaunch s t

/-- A register result, `pc + 1`, and nothing else: N and Z kept (40_register_alu.md R70). -/
def RegResultKeep (s t : State) (rd : Reg) (v : Word) : Prop :=
  WritesOnlyReg s t rd v ∧ KeepsNZ s t ∧ t.pc = s.pc + 1 ∧ KeepsMem s t ∧ KeepsLaunch s t

/-! ### Comparing runs -/

/-- Two states that differ at most in N and Z. -/
def SameButNZ (s t : State) : Prop :=
  s.regs = t.regs ∧ s.pc = t.pc ∧ s.dm = t.dm ∧ s.im = t.im ∧ s.endPc = t.endPc

/-- Two outcomes of the same form that differ at most in N and Z of the state. -/
def SameOutcomeButNZ : Host.Outcome State Fault Refusal → Host.Outcome State Fault Refusal → Prop
  | .next s, .next t => SameButNZ s t
  | .fault f, .fault g => f = g
  | .refused q, .refused r => q = r
  | _, _ => False

/-- None of the next `k` steps stores to the data address `a`. -/
def NoStoreTo (a : Word) : Nat → State → Prop
  | 0, _ => True
  | k + 1, s =>
    (∀ ra rb, s.nextInstr = some (.st ra rb) → s.readReg ra ≠ a) ∧
      ∀ t, step s = .next t → NoStoreTo a k t

end Sys2Proof.Machine
end

