-- ==== Sys2Proof/Certificates/Slice0/Obligations.lean ====
section
/-! DEFINITION. The statements for the provers, each a `Prop` that says one rule, or one group of rules, of spec/.
Words are 16 bits wide by the spec's decision D2 (log entry 10), the fields of a word lie where D13 puts them
(log entry 14), AD is made up as D12 says (log entry 13), and N and Z mean what D10 says (log entry 18), where a rule gives them in its own words. "The model's choice" in a docstring names a log entry. -/

open Sys2Proof Sys2Proof.Machine

/-- Decoding the word of any well-formed instruction gives that instruction (30_encoding.md sections 1 to 3). -/
def Obligations.DecodeOfEncodeIsTheInstruction : Prop :=
  ∀ i : Instr, i.wellFormed = true → decode (encode i) = .ok i

/-- Every combination of field values under a defined opcode is a legal instruction (30_encoding.md section 5). -/
def Obligations.DecodedInstructionsAreWellFormed : Prop :=
  ∀ (ir : Word) (i : Instr), decode ir = .ok i → i.wellFormed = true

/-- Rests on the spec's decision D14 (log entry 14). "a decoder ignores unused fields; an assembler or encoder writes 0 into them". -/
def Obligations.UnusedFieldsAreIgnoredAndEncodedAsZero : Prop :=
  ∀ (ir : Word) (i : Instr), decode ir = .ok i →
    (∀ ir' : Word, ir' &&& i.opcode.usedMask = ir &&& i.opcode.usedMask → decode ir' = .ok i) ∧
      encode i = ir &&& i.opcode.usedMask

/-- The decode function of R57, total on 16-bit words, over the 19 opcodes of the opcode map. (How BRZ and BRN read the two AD fields as one number is the spec's decision D12, log entry 13.) -/
def Obligations.DecodeFollowsTheOpcodeMap : Prop :=
  ∀ (op : BitVec 7) (dr sa sb : BitVec 3),
    decode (pack op dr sa sb) =
      if op = 0b0000000#7 then .ok (.mova (regOfField dr) (regOfField sa))
      else if op = 0b0000001#7 then .ok (.inc (regOfField dr) (regOfField sa))
      else if op = 0b0000010#7 then .ok (.add (regOfField dr) (regOfField sa) (regOfField sb))
      else if op = 0b0000101#7 then .ok (.sub (regOfField dr) (regOfField sa) (regOfField sb))
      else if op = 0b0000110#7 then .ok (.dec (regOfField dr) (regOfField sa))
      else if op = 0b0001000#7 then .ok (.and (regOfField dr) (regOfField sa) (regOfField sb))
      else if op = 0b0001001#7 then .ok (.or (regOfField dr) (regOfField sa) (regOfField sb))
      else if op = 0b0001010#7 then .ok (.xor (regOfField dr) (regOfField sa) (regOfField sb))
      else if op = 0b0001011#7 then .ok (.not (regOfField dr) (regOfField sa))
      else if op = 0b0001100#7 then .ok (.movb (regOfField dr) (regOfField sb))
      else if op = 0b0001101#7 then .ok (.shr (regOfField dr) (regOfField sb))
      else if op = 0b0001110#7 then .ok (.shl (regOfField dr) (regOfField sb))
      else if op = 0b1001100#7 then .ok (.ldi (regOfField dr) sb.toNat)
      else if op = 0b1000010#7 then .ok (.adi (regOfField dr) (regOfField sa) sb.toNat)
      else if op = 0b0010000#7 then .ok (.ld (regOfField dr) (regOfField sa))
      else if op = 0b0100000#7 then .ok (.st (regOfField sa) (regOfField sb))
      else if op = 0b1100000#7 then .ok (.brz (regOfField sa) (adOfFields dr sb))
      else if op = 0b1100001#7 then .ok (.brn (regOfField sa) (adOfFields dr sb))
      else if op = 0b1110000#7 then .ok (.jmp (regOfField sa))
      else .error (.undefinedOpcode op)

/-- Words written out bit by bit: the five of §Ex2b, the four whole ones of §Ex2a, ST (V49), BRN (V61), JMP (V66) and an undefined opcode (W7). The AD of the BRN word rests on the spec's decision D12 (log entry 13): "Every BRZ and BRN encoding below rests on decision D12". -/
def Obligations.SourceEncodingsDecode : Prop :=
  decode 0b0000010000111110#16 = .ok (.add 0 7 6) ∧
  decode 0b0000110001101000#16 = .ok (.dec 1 5) ∧
  decode 0b0001110010000100#16 = .ok (.shl 2 4) ∧
  decode 0b0001011011011000#16 = .ok (.not 3 3) ∧
  decode 0b0001001100010001#16 = .ok (.or 4 2 1) ∧
  decode 0b0001010000111011#16 = .ok (.xor 0 7 3) ∧
  decode 0b0010000001100000#16 = .ok (.ld 1 4) ∧
  decode 0b1000010010101010#16 = .ok (.adi 2 5 2) ∧
  decode 0b0001110011000110#16 = .ok (.shl 3 6) ∧
  decode 0b0100000000100001#16 = .ok (.st 4 1) ∧
  decode 0b1100001000010010#16 = .ok (.brn 2 2) ∧
  decode 0b1110000000111000#16 = .ok (.jmp 7) ∧
  decode 0b0000011000000000#16 = .error (.undefinedOpcode 0x03#7)

/-- The immediate of LDI and ADI (R55): `imm = zext_16(IR[2:0])`, from 0 to 7. -/
def Obligations.ImmediateIsZeroFilled : Prop :=
  (∀ d a o : BitVec 3,
    decode (pack 0b1001100#7 d a o) = .ok (.ldi (regOfField d) o.toNat) ∧
    decode (pack 0b1000010#7 d a o) = .ok (.adi (regOfField d) (regOfField a) o.toNat) ∧
    immediate o.toNat = (BitVec.ofNat 16 o.toNat) ∧ (immediate o.toNat).toNat = o.toNat ∧ o.toNat ≤ 7) ∧
  sbField (encode (.adi 2 5 2)) = 2#3

/-- Rests on the spec's decision D12 (log entry 13). "AD = IR[8:6] ‖ IR[2:0], six bits, with IR[8] its sign bit". -/
def Obligations.BranchOffsetIsSignExtended : Prop :=
  (∀ l a r : BitVec 3,
    decode (pack 0b1100000#7 l a r) = .ok (.brz (regOfField a) (adOfFields l r)) ∧
    decode (pack 0b1100001#7 l a r) = .ok (.brn (regOfField a) (adOfFields l r)) ∧
    (∀ k, (branchOffset (adOfFields l r)).getLsbD k =
      if k < 3 then r.getLsbD k
      else if k < 6 then l.getLsbD (k - 3)
      else if k < 16 then l.getLsbD 2 else false) ∧
    (branchOffset (adOfFields l r)).toInt = adOfFields l r ∧
    -32 ≤ adOfFields l r ∧ adOfFields l r ≤ 31) ∧
  adOfFields 0b100#3 0b000#3 = -32 ∧ branchOffset (-32) = 0xFFE0#16 ∧
  adOfFields 0b011#3 0b111#3 = 31 ∧ branchOffset 31 = 0x001F#16

/-- Rests on the spec's decision D23 (log entry 27). "An operand outside its range is an assembly error, never truncated." -/
def Obligations.AssemblerAcceptsExactlyWellFormedLines : Prop :=
  (∀ i : Instr, assemble i.opcode (asmOperands i) = if i.wellFormed then some i else none) ∧
  ∀ (o : Opcode) (ops : List AsmOperand) (i : Instr), assemble o ops = some i →
    i.opcode = o ∧ asmOperands i = ops ∧ i.wellFormed = true

/-- MOVA (R71): encoding, result, status bits, `pc + 1`, and nothing else changed; it always completes. -/
def Obligations.MovaCopiesAndSetsStatus : Prop :=
  (∀ d a x : BitVec 3,
    decode (pack 0b0000000#7 d a x) = .ok (.mova (regOfField d) (regOfField a)) ∧
    encode (.mova (regOfField d) (regOfField a)) = pack 0b0000000#7 d a 0#3) ∧
  ∀ (rd ra : Reg) (s : State), ∃ t, exec (.mova rd ra) s = .next t ∧
      RegResultNZ s t rd (s.readReg ra)

/-- INC (R72): encoding, result, status bits, `pc + 1`, and nothing else changed; it always completes. -/
def Obligations.IncAddsOne : Prop :=
  (∀ d a x : BitVec 3,
    decode (pack 0b0000001#7 d a x) = .ok (.inc (regOfField d) (regOfField a)) ∧
    encode (.inc (regOfField d) (regOfField a)) = pack 0b0000001#7 d a 0#3) ∧
  ∀ (rd ra : Reg) (s : State), ∃ t, exec (.inc rd ra) s = .next t ∧
      RegResultNZ s t rd (s.readReg ra + 1#16)

/-- ADD (R73): encoding, result, status bits, `pc + 1`, and nothing else changed; it always completes. -/
def Obligations.AddAddsModuloWord : Prop :=
  (∀ d a b : BitVec 3,
    decode (pack 0b0000010#7 d a b) = .ok (.add (regOfField d) (regOfField a) (regOfField b)) ∧
    encode (.add (regOfField d) (regOfField a) (regOfField b)) = pack 0b0000010#7 d a b) ∧
  ∀ (rd ra rb : Reg) (s : State), ∃ t, exec (.add rd ra rb) s = .next t ∧
      RegResultNZ s t rd (s.readReg ra + s.readReg rb)

/-- SUB (R74): encoding, result, status bits, `pc + 1`, and nothing else changed; it always completes. -/
def Obligations.SubSubtractsSecondFromFirst : Prop :=
  (∀ d a b : BitVec 3,
    decode (pack 0b0000101#7 d a b) = .ok (.sub (regOfField d) (regOfField a) (regOfField b)) ∧
    encode (.sub (regOfField d) (regOfField a) (regOfField b)) = pack 0b0000101#7 d a b) ∧
  ∀ (rd ra rb : Reg) (s : State), ∃ t, exec (.sub rd ra rb) s = .next t ∧
      RegResultNZ s t rd (s.readReg ra - s.readReg rb) ∧
      RegResultNZ s t rd (s.readReg ra + ~~~ s.readReg rb + 1#16)

/-- DEC (R75): encoding, result, status bits, `pc + 1`, and nothing else changed; it always completes. -/
def Obligations.DecSubtractsOne : Prop :=
  (∀ d a x : BitVec 3,
    decode (pack 0b0000110#7 d a x) = .ok (.dec (regOfField d) (regOfField a)) ∧
    encode (.dec (regOfField d) (regOfField a)) = pack 0b0000110#7 d a 0#3) ∧
  ∀ (rd ra : Reg) (s : State), ∃ t, exec (.dec rd ra) s = .next t ∧
      RegResultNZ s t rd (s.readReg ra - 1#16)

/-- AND (R76): encoding, result, status bits, `pc + 1`, and nothing else changed; it always completes. -/
def Obligations.AndIsBitwise : Prop :=
  (∀ d a b : BitVec 3,
    decode (pack 0b0001000#7 d a b) = .ok (.and (regOfField d) (regOfField a) (regOfField b)) ∧
    encode (.and (regOfField d) (regOfField a) (regOfField b)) = pack 0b0001000#7 d a b) ∧
  ∀ (rd ra rb : Reg) (s : State), ∃ t, exec (.and rd ra rb) s = .next t ∧
      RegResultNZ s t rd (s.readReg ra &&& s.readReg rb)

/-- OR (R77): encoding, result, status bits, `pc + 1`, and nothing else changed; it always completes. -/
def Obligations.OrIsBitwise : Prop :=
  (∀ d a b : BitVec 3,
    decode (pack 0b0001001#7 d a b) = .ok (.or (regOfField d) (regOfField a) (regOfField b)) ∧
    encode (.or (regOfField d) (regOfField a) (regOfField b)) = pack 0b0001001#7 d a b) ∧
  ∀ (rd ra rb : Reg) (s : State), ∃ t, exec (.or rd ra rb) s = .next t ∧
      RegResultNZ s t rd (s.readReg ra ||| s.readReg rb)

/-- XOR (R78): encoding, result, status bits, `pc + 1`, and nothing else changed; it always completes. -/
def Obligations.XorIsBitwise : Prop :=
  (∀ d a b : BitVec 3,
    decode (pack 0b0001010#7 d a b) = .ok (.xor (regOfField d) (regOfField a) (regOfField b)) ∧
    encode (.xor (regOfField d) (regOfField a) (regOfField b)) = pack 0b0001010#7 d a b) ∧
  ∀ (rd ra rb : Reg) (s : State), ∃ t, exec (.xor rd ra rb) s = .next t ∧
      RegResultNZ s t rd (s.readReg ra ^^^ s.readReg rb)

/-- NOT (R79): encoding, result, status bits, `pc + 1`, and nothing else changed; it always completes. -/
def Obligations.NotComplementsOperandA : Prop :=
  (∀ d a x : BitVec 3,
    decode (pack 0b0001011#7 d a x) = .ok (.not (regOfField d) (regOfField a)) ∧
    encode (.not (regOfField d) (regOfField a)) = pack 0b0001011#7 d a 0#3) ∧
  ∀ (rd ra : Reg) (s : State), ∃ t, exec (.not rd ra) s = .next t ∧
      RegResultNZ s t rd (~~~ s.readReg ra) ∧
      RegResultNZ s t rd (0xFFFF#16 - s.readReg ra)

/-- MOVB (R80): encoding, result, status bits, `pc + 1`, and nothing else changed; it always completes. -/
def Obligations.MovbCopiesAndKeepsStatus : Prop :=
  (∀ d x b : BitVec 3,
    decode (pack 0b0001100#7 d x b) = .ok (.movb (regOfField d) (regOfField b)) ∧
    encode (.movb (regOfField d) (regOfField b)) = pack 0b0001100#7 d 0#3 b) ∧
  ∀ (rd rb : Reg) (s : State), ∃ t, exec (.movb rd rb) s = .next t ∧
      RegResultKeep s t rd (s.readReg rb)

/-- SHR (40_register_alu.md section 2), which rests on the spec's decision D9 (log entry 15), "v = 0b0 ‖ R[sb][15:1]": encoding, result, status bits, `pc + 1`, and nothing else changed; it always completes. -/
def Obligations.ShrShiftsInZeroFromTheLeft : Prop :=
  (∀ d x b : BitVec 3,
    decode (pack 0b0001101#7 d x b) = .ok (.shr (regOfField d) (regOfField b)) ∧
    encode (.shr (regOfField d) (regOfField b)) = pack 0b0001101#7 d 0#3 b) ∧
  ∀ (rd rb : Reg) (s : State), ∃ t, exec (.shr rd rb) s = .next t ∧
      RegResultKeep s t rd (((0#1 ++ (s.readReg rb).extractLsb' 1 15 : BitVec (1 + 15)).cast (by rfl))) ∧
      RegResultKeep s t rd (BitVec.ofNat 16 ((s.readReg rb).toNat / 2))

/-- SHL (40_register_alu.md section 2), which rests on the spec's decision D9 (log entry 15), "v = R[sb][14:0] ‖ 0b0": encoding, result, status bits, `pc + 1`, and nothing else changed; it always completes. -/
def Obligations.ShlShiftsInZeroFromTheRight : Prop :=
  (∀ d x b : BitVec 3,
    decode (pack 0b0001110#7 d x b) = .ok (.shl (regOfField d) (regOfField b)) ∧
    encode (.shl (regOfField d) (regOfField b)) = pack 0b0001110#7 d 0#3 b) ∧
  ∀ (rd rb : Reg) (s : State), ∃ t, exec (.shl rd rb) s = .next t ∧
      RegResultKeep s t rd ((((s.readReg rb).extractLsb' 0 15 ++ 0#1 : BitVec (15 + 1)).cast (by rfl))) ∧
      RegResultKeep s t rd (s.readReg rb + s.readReg rb)

/-- LDI (R90): encoding, the zero-filled operand, N and Z kept, `pc + 1`, and nothing else changed; it always completes. -/
def Obligations.LdiLoadsZeroFilledOperand : Prop :=
  (∀ d x o : BitVec 3,
    decode (pack 0b1001100#7 d x o) = .ok (.ldi (regOfField d) o.toNat) ∧
    encode (.ldi (regOfField d) o.toNat) = pack 0b1001100#7 d 0#3 o) ∧
  ∀ (rd : Reg) (o : BitVec 3) (s : State), ∃ t, exec (.ldi rd o.toNat) s = .next t ∧
      RegResultKeep s t rd (BitVec.ofNat 16 o.toNat)

/-- ADI (R91): encoding, the sum, N and Z from it, `pc + 1`, and nothing else changed; it always completes. -/
def Obligations.AdiAddsZeroFilledOperand : Prop :=
  (∀ d a o : BitVec 3,
    decode (pack 0b1000010#7 d a o) = .ok (.adi (regOfField d) (regOfField a) o.toNat) ∧
    encode (.adi (regOfField d) (regOfField a) o.toNat) = pack 0b1000010#7 d a o) ∧
  ∀ (rd ra : Reg) (o : BitVec 3) (s : State), ∃ t, exec (.adi rd ra o.toNat) s = .next t ∧
      RegResultNZ s t rd (s.readReg ra + (BitVec.ofNat 16 o.toNat))

/-- LD (R95): encoding, the word at the address in R[SA], N and Z kept, `pc + 1`, and nothing else changed; every address is valid, so it always completes. -/
def Obligations.LdLoadsTheAddressedWord : Prop :=
  (∀ d a x : BitVec 3,
    decode (pack 0b0010000#7 d a x) = .ok (.ld (regOfField d) (regOfField a)) ∧
    encode (.ld (regOfField d) (regOfField a)) = pack 0b0010000#7 d a 0#3) ∧
  ∀ (rd ra : Reg) (s : State), ∃ t, exec (.ld rd ra) s = .next t ∧
      RegResultKeep s t rd (s.memRead (s.readReg ra))

/-- ST (R96): encoding, the word stored at the address in R[SA], every other data word, every register, N and Z as before; every address is valid, so it always completes. -/
def Obligations.StStoresAtTheAddressedWord : Prop :=
  (∀ x a b : BitVec 3,
    decode (pack 0b0100000#7 x a b) = .ok (.st (regOfField a) (regOfField b)) ∧
    encode (.st (regOfField a) (regOfField b)) = pack 0b0100000#7 0#3 a b) ∧
  ∀ (ra rb : Reg) (s : State), ∃ t, exec (.st ra rb) s = .next t ∧
      WritesOnlyMem s t (s.readReg ra) (s.readReg rb) ∧ t.pc = s.pc + 1 ∧ KeepsRegs s t ∧
      KeepsNZ s t ∧ KeepsLaunch s t

/-- BRZ (43_branch_jump.md), which rests on the spec's decisions D11, D12 and D17 (log entries 20, 13 and 12): the test is on R[SA] itself, N and Z are written taken or not, and it always completes. -/
def Obligations.BrzBranchesWhenRegisterIsZero : Prop :=
  (∀ l a r : BitVec 3,
    decode (pack 0b1100000#7 l a r) = .ok (.brz (regOfField a) (adOfFields l r)) ∧
    encode (.brz (regOfField a) (adOfFields l r)) = pack 0b1100000#7 l a r) ∧
  ∀ (ra : Reg) (ad : Int) (s : State), -32 ≤ ad → ad ≤ 31 → ∃ t, exec (.brz ra ad) s = .next t ∧
      SetsNZ t (s.readReg ra) ∧
      (s.readReg ra = 0x0000#16 → t.pc = s.pc + BitVec.ofInt 16 ad) ∧
      (¬ s.readReg ra = 0x0000#16 → t.pc = s.pc + 1#16) ∧
      KeepsRegs s t ∧ KeepsMem s t ∧ KeepsLaunch s t

/-- BRN (43_branch_jump.md), which rests on the spec's decisions D11, D12 and D17 (log entries 20, 13 and 12): the test is on R[SA] itself, N and Z are written taken or not, and it always completes. -/
def Obligations.BrnBranchesWhenRegisterIsNegative : Prop :=
  (∀ l a r : BitVec 3,
    decode (pack 0b1100001#7 l a r) = .ok (.brn (regOfField a) (adOfFields l r)) ∧
    encode (.brn (regOfField a) (adOfFields l r)) = pack 0b1100001#7 l a r) ∧
  ∀ (ra : Reg) (ad : Int) (s : State), -32 ≤ ad → ad ≤ 31 → ∃ t, exec (.brn ra ad) s = .next t ∧
      SetsNZ t (s.readReg ra) ∧
      ((s.readReg ra).toInt < 0 → t.pc = s.pc + BitVec.ofInt 16 ad) ∧
      (¬ (s.readReg ra).toInt < 0 → t.pc = s.pc + 1#16) ∧
      KeepsRegs s t ∧ KeepsMem s t ∧ KeepsLaunch s t

/-- JMP (43_branch_jump.md), which rests on the spec's decision D16 (log entry 11): absolute, no increment, no link; it always completes. -/
def Obligations.JmpLoadsThePcFromTheRegister : Prop :=
  (∀ x a x' : BitVec 3,
    decode (pack 0b1110000#7 x a x') = .ok (.jmp (regOfField a)) ∧
    encode (.jmp (regOfField a)) = pack 0b1110000#7 0#3 a 0#3) ∧
  ∀ (ra : Reg) (s : State), ∃ t, exec (.jmp ra) s = .next t ∧
      t.pc = s.readReg ra ∧ KeepsRegs s t ∧ KeepsNZ s t ∧ KeepsMem s t ∧ KeepsLaunch s t

/-- Rests on the spec's decisions D3 and D17 (log entries 10 and 12). "target = pc + off -- modulo 2^16; pc = address of this branch". -/
def Obligations.BranchTargetWrapsModuloWord : Prop :=
  ∀ (s : State) (ad : Int), -32 ≤ ad → ad ≤ 31 →
    ((s.branchTarget ad).toNat : Int) = ((s.pc.toNat : Int) + ad) % 65536

/-- "A defined instruction cannot fault": no field value, operand value, address or state stops one (60_exceptions.md sections 1 and 3). -/
def Obligations.EveryInstructionCompletes : Prop :=
  ∀ (i : Instr) (s : State), ∃ t, exec i s = .next t

/-- The frame of every instruction, by the write columns of 10_state.md sections 1 and 3 (N and Z kept: the spec's decision D10, log entry 19). -/
def Obligations.OnlyTheDestinationRegisterChanges : Prop :=
  ∀ (i : Instr) (s t : State), exec i s = .next t →
    (∀ r, i.writes ≠ some r → t.readReg r = s.readReg r) ∧
    (i.writesNZ = false → KeepsNZ s t) ∧
    (∀ a, (∀ ra rb, i = .st ra rb → s.dataAddress ra ≠ a) → t.memRead a = s.memRead a) ∧
    KeepsLaunch s t

/-- The read columns of 10_state.md section 1, and that no instruction reads N or Z (section 3). -/
def Obligations.ResultsDependOnlyOnWhatIsRead : Prop :=
  ∀ (i : Instr) (s s' t t' : State),
    (∀ r ∈ i.reads, s.readReg r = s'.readReg r) → s.pc = s'.pc → KeepsMem s s' →
    exec i s = .next t → exec i s' = .next t' →
    t.pc = t'.pc ∧ (∀ r, i.writes = some r → t.readReg r = t'.readReg r) ∧ KeepsMem t t' ∧
      (i.writesNZ = true → t.n = t'.n ∧ t.z = t'.z)

/-- Rests on the spec's decisions D10 and D11 (log entries 18 and 20). "N <- (v[15] = 1), Z <- (v = 0x0000)". -/
def Obligations.StatusBitsComeFromTheResult : Prop :=
  ∀ (i : Instr) (s t : State), exec i s = .next t → i.writesNZ = true →
    (∀ r, i.writes = some r → SetsNZ t (t.readReg r)) ∧
    (i.writes = none → ∀ r ∈ i.reads, SetsNZ t (s.readReg r))

/-- "Covers BRZ, BRN and JMP, the only instructions that can make `pc` anything but `pc + 1`" (43_branch_jump.md; the wrap is the spec's decision D3, log entry 10). -/
def Obligations.OnlyBranchesAndJumpsLeaveTheSequence : Prop :=
  ∀ (i : Instr) (s t : State), exec i s = .next t → t.pc ≠ s.pc + 1#16 →
    (∃ ra, i = .jmp ra) ∨
    (∃ ra ad, i = .brz ra ad ∧ s.readReg ra = 0x0000#16) ∨
    (∃ ra ad, i = .brn ra ad ∧ (s.readReg ra).toInt < 0)

/-- The step of 10_state.md section 7: fetch at `pc`, decode, and the instruction's rule on the state from before the step. -/
def Obligations.StepRunsTheDecodedInstruction : Prop :=
  ∀ (s : State) (ir : Word) (i : Instr), s.pc ≠ s.endPc → s.iMemRead s.pc = some ir →
    decode ir = .ok i → step s = exec i s

/-- The order END_PC, fetch, decode of 60_exceptions.md section 3, with the two model faults. That the end of a run is the refusal `runEnded` is the model's choice (log entry 7); the faults are the spec's decisions D15 and D22 (log entries 22 and 23). -/
def Obligations.StepOutcomesAreExactlyThese : Prop :=
  ∀ s : State,
    (∀ q, step s = .refused q ↔ q = .runEnded ∧ s.pc = s.endPc) ∧
    (∀ f, step s = .fault f ↔ s.pc ≠ s.endPc ∧
      ((f = .fetchOutsideProgram s.pc ∧ s.iMemRead s.pc = none) ∨
        ∃ ir, f = .undefinedOpcode s.pc ir ∧ s.iMemRead s.pc = some ir ∧
          ∀ o : Opcode, o.bits ≠ ir.extractLsb' 9 7)) ∧
    ((∃ t, step s = .next t) ↔ s.pc ≠ s.endPc ∧
      ∃ ir o, s.iMemRead s.pc = some ir ∧ Opcode.bits o = ir.extractLsb' 9 7)

/-- Rests on the spec's decision D22 (log entry 23). "Addresses outside that list hold no instruction." -/
def Obligations.FetchReadsExactlyTheProgram : Prop :=
  ∀ (s : State) (a : Word), s.im.wf = true →
    (∀ w, s.iMemRead a = some w ↔
      ∃ k, s.im.words[k]? = some w ∧ a = s.im.base + BitVec.ofNat 16 k) ∧
    (s.iMemRead a = none ↔ ∀ k, k < s.im.words.length → a ≠ s.im.base + BitVec.ofNat 16 k)

/-- The invariant `State.Inv`: the form in which the model holds the data memory (log entry 6) and the constraint of the launch on the program. -/
def Obligations.StepKeepsTheInvariant : Prop :=
  ∀ s t : State, s.Inv → step s = .next t → t.Inv

/-- Launch and reset. `pc` at RESET_PC with default 0x0000 is the spec's decision D20 (log entry 4); the zero registers, status bits, data words and the empty program of `State.reset` are the model's choice (log entries 1, 2, 3, 5). -/
def Obligations.ResetAndLaunchesMeetTheInvariant : Prop :=
  State.reset.Inv ∧ State.reset.pc = 0x0000#16 ∧
  ∀ l : Launch, l.wf = true → (State.ofLaunch l).Inv ∧ (State.ofLaunch l).pc = l.resetPc

/-- What 10_state.md section 8 calls unspecified is "an arbitrary value that the launch chooses" (the spec's decisions D20, D26; log entries 1 to 5): every choice is a launch. -/
def Obligations.EveryStartStateIsALaunch : Prop :=
  ∀ (f : Word → Word) (g : Reg → Word) (n z : Bool) (p : Program) (resetPc endPc : Word),
    p.wf = true → ∃ l : Launch, l.wf = true ∧
      (∀ a, (State.ofLaunch l).memRead a = f a) ∧ (∀ r, (State.ofLaunch l).readReg r = g r) ∧
      (State.ofLaunch l).n = n ∧ (State.ofLaunch l).z = z ∧ (State.ofLaunch l).im = p ∧
      (State.ofLaunch l).pc = resetPc ∧ (State.ofLaunch l).endPc = endPc

/-- The canonical form of the data memory (log entry 6) has one list for each content of the 2^16 words. -/
def Obligations.CanonicalMemoriesReadingTheSameAreEqual : Prop :=
  ∀ m m' : Memory, m.wf = true → m'.wf = true →
    (∀ a : Nat, a < 65536 → m.read a = m'.read a) → m = m'

/-- "Data memory DM is state: ... read by LD and written by ST and by nothing else" (10_state.md section 5; the spec's decision D5, log entry 17). -/
def Obligations.DataMemoryChangesOnlyByStore : Prop :=
  ∀ (s t : State) (a : Word), step s = .next t → t.memRead a ≠ s.memRead a →
    ∃ ra rb, s.nextInstr = some (.st ra rb) ∧ s.dataAddress ra = a ∧ t.memRead a = s.readReg rb

/-- Rests on the spec's decision D8 (log entry 24). "every LD returns the value of the most recent ST to the same address in program order". -/
def Obligations.LoadReturnsTheLatestStore : Prop :=
  ∀ (s t u : State) (k : Nat) (ra rb rd qa : Reg),
    s.nextInstr = some (.st ra rb) → step s = .next t →
    NoStoreTo (s.dataAddress ra) k t → run k t = .next u →
    u.nextInstr = some (.ld rd qa) → u.dataAddress qa = s.dataAddress ra →
    ∃ v, step u = .next v ∧ v.readReg rd = s.readReg rb

/-- Rests on the spec's decision D4 (log entry 16). "Stores never reach instruction fetch." -/
def Obligations.RunsNeverChangeTheProgram : Prop :=
  ∀ (k : Nat) (s t : State), run k s = .next t →
    KeepsLaunch s t ∧ ∀ a, t.iMemRead a = s.iMemRead a

/-- "N and Z cannot influence any register, memory word or PC value" (10_state.md section 3), over whole runs. -/
def Obligations.StatusBitsNeverInfluenceARun : Prop :=
  ∀ (k : Nat) (s t : State), SameButNZ s t → SameOutcomeButNZ (run k s) (run k t)

/-- "The combination N = 1, Z = 1 ... cannot be produced by any instruction" (95_test_vectors.md section 2.1). -/
def Obligations.StatusBitsAreNeverBothSet : Prop :=
  (∀ s t : State, step s = .next t → ¬ (s.n = true ∧ s.z = true) → ¬ (t.n = true ∧ t.z = true)) ∧
  ∀ (i : Instr) (s t : State), i.writesNZ = true → exec i s = .next t → ¬ (t.n = true ∧ t.z = true)

/-- "After the first execution of such a step (which may change N and Z, for BRZ and BRN) every later step reproduces the same state exactly" (70_reset_and_hazards.md section 2). That AD 0 reaches the branch itself rests on the spec's decision D17 (log entry 12), that JMP is not incremented on D16 (log entry 11). -/
def Obligations.FixedPointsRepeatForEver : Prop :=
  ∀ (s : State) (ra : Reg),
    ((s.nextInstr = some (.brz ra 0) ∧ s.readReg ra = 0x0000#16) ∨
      (s.nextInstr = some (.brn ra 0) ∧ (s.readReg ra).toInt < 0) ∨
      (s.nextInstr = some (.jmp ra) ∧ s.readReg ra = s.pc)) →
    ∃ t, step s = .next t ∧ SameButNZ s t ∧ (∀ k, run k t = .next t) ∧ s.Safe

/-- Rests on the spec's decisions D16, D21 and D22 (log entries 11, 21 and 23). "the *next* step faults FetchOutsideProgram, or the run ends if it equals END_PC". -/
def Obligations.JumpOutsideTheProgramFaultsNextStep : Prop :=
  ∀ (s : State) (ra : Reg), s.nextInstr = some (.jmp ra) →
    ∃ t, step s = .next t ∧ t.pc = s.readReg ra ∧
      (s.readReg ra = s.endPc → s.EndsIn 1 t) ∧
      (s.readReg ra ≠ s.endPc → s.iMemRead (s.readReg ra) = none →
        run 2 s = .fault (.fetchOutsideProgram (s.readReg ra)))

/-- "no step leaves it; the fault is never cleared" (60_exceptions.md section 1). The refusal at END_PC is the model's choice (log entry 7). -/
def Obligations.StoppedRunsStayStopped : Prop :=
  (∀ (s : State) (f : Fault) (k : Nat), step s = .fault f → run (k + 1) s = .fault f) ∧
  ∀ (s : State) (k : Nat), s.pc = s.endPc → run (k + 1) s = .refused .runEnded

/-- Encoding, fetch, decode and execution end to end. Placing a word from outside is the model's choice (log entry 8). -/
def Obligations.PlacedWordsRunAsTheirInstruction : Prop :=
  ∀ (i : Instr) (s : State), i.wellFormed = true →
    step (s.withFetchWord 16 (encode i).toNat) = exec i (s.withFetchWord 16 (encode i).toNat) ∧
    (s.withFetchWord 16 (encode i).toNat).regs = s.regs ∧
    (s.withFetchWord 16 (encode i).toNat).pc = s.pc ∧
    KeepsNZ s (s.withFetchWord 16 (encode i).toNat) ∧
    (s.withFetchWord 16 (encode i).toNat).dm = s.dm

/-- The idioms of 30_encoding.md section 4 and the corner cases of SHL and ADI (SHL rests on the spec's decision D9, log entry 15). -/
def Obligations.IdiomsDoWhatTheyAreFor : Prop :=
  (∀ (r : Reg) (s : State), ∃ t, exec (.movb r r) s = .next t ∧
    KeepsRegs s t ∧ KeepsNZ s t ∧ KeepsMem s t ∧ KeepsLaunch s t ∧ t.pc = s.pc + 1#16) ∧
  (∀ (r : Reg) (s : State),
    (∃ t, exec (.xor r r r) s = .next t ∧ t.readReg r = 0x0000#16 ∧ t.n = false ∧ t.z = true) ∧
    ∃ t, exec (.sub r r r) s = .next t ∧ t.readReg r = 0x0000#16 ∧ t.n = false ∧ t.z = true) ∧
  (∀ (r : Reg) (s : State), ∃ t u, exec (.not r r) s = .next t ∧ exec (.inc r r) t = .next u ∧
    u.readReg r = - s.readReg r) ∧
  (∀ (rd rb : Reg) (s : State), ∃ t u, exec (.shl rd rb) s = .next t ∧
    exec (.add rd rb rb) s = .next u ∧ SameButNZ t u) ∧
  ∀ (rd ra : Reg) (s : State), exec (.adi rd ra 0) s = exec (.mova rd ra) s
end

