-- ==== Sys2Proof/Laws/Decode.lean ====
section
/-! SUPPORT. The laws of the opcode map, the fields of a word and the operand codes. -/

namespace Sys2Proof

/-! ### The opcode map -/

/-- An opcode is found from its bits: no two opcodes have the same. -/
@[simp] theorem Opcode.ofBits_bits (o : Opcode) : Opcode.ofBits o.bits = some o := by
  cases o <;> rfl

/-- Bits give an opcode only if they are that opcode's seven bits. -/
theorem Opcode.ofBits_eq_some {b : BitVec 7} {o : Opcode} : Opcode.ofBits b = some o ↔ o.bits = b := by
  constructor
  · intro h
    simpa using List.find?_some h
  · rintro rfl
    exact Opcode.ofBits_bits o

/-- Bits give no opcode exactly when they are none of the 19. -/
theorem Opcode.ofBits_eq_none {b : BitVec 7} : Opcode.ofBits b = none ↔ ∀ o : Opcode, o.bits ≠ b := by
  constructor
  · rintro h o rfl
    rw [Opcode.ofBits_bits] at h
    cases h
  · intro h
    exact List.find?_eq_none.2 fun o _ => by simpa using h o

/-! ### The fields of a word -/

variable (op : BitVec 7) (dr sa sb : BitVec 3) (ir : Word)

/-- The bits of a word made from four fields. -/
theorem pack_getLsbD (i : Nat) :
    (pack op dr sa sb).getLsbD i =
      if i < 3 then sb.getLsbD i
      else if i < 6 then sa.getLsbD (i - 3)
      else if i < 9 then dr.getLsbD (i - 6)
      else op.getLsbD (i - 9) := by
  simp only [pack, BitVec.getLsbD_cast, BitVec.getLsbD_append]
  rcases Nat.lt_or_ge i 3 with h | h
  · simp [h]
  · rcases Nat.lt_or_ge i 6 with h' | h'
    · simp [show ¬i < 3 by omega, show i - 3 < 3 by omega, h']
    · rcases Nat.lt_or_ge i 9 with h'' | h''
      · simp [show ¬i < 3 by omega, show ¬i - 3 < 3 by omega, show ¬i < 6 by omega,
          h'', show i - 3 - 3 = i - 6 by omega, show i - 6 < 3 by omega]
      · simp [show ¬i < 3 by omega, show ¬i - 3 < 3 by omega, show ¬i < 6 by omega,
          show ¬i - 3 - 3 < 3 by omega, show ¬i < 9 by omega, show i - 3 - 3 - 3 = i - 9 by omega]

@[simp] theorem opcodeField_pack : opcodeField (pack op dr sa sb) = op := by
  apply BitVec.eq_of_getLsbD_eq
  intro i hi
  rw [opcodeField, BitVec.getLsbD_extractLsb', pack_getLsbD]
  simp [hi, show ¬9 + i < 3 by omega, show ¬9 + i < 6 by omega]

@[simp] theorem drField_pack : drField (pack op dr sa sb) = dr := by
  apply BitVec.eq_of_getLsbD_eq
  intro i hi
  rw [drField, BitVec.getLsbD_extractLsb', pack_getLsbD]
  simp [hi, show ¬6 + i < 3 by omega, show 6 + i < 9 by omega]

@[simp] theorem saField_pack : saField (pack op dr sa sb) = sa := by
  apply BitVec.eq_of_getLsbD_eq
  intro i hi
  rw [saField, BitVec.getLsbD_extractLsb', pack_getLsbD]
  simp [hi, show 3 + i < 6 by omega]

@[simp] theorem sbField_pack : sbField (pack op dr sa sb) = sb := by
  apply BitVec.eq_of_getLsbD_eq
  intro i hi
  rw [sbField, BitVec.getLsbD_extractLsb', pack_getLsbD]
  simp [hi]

/-- A word is its four fields. -/
theorem pack_fields : pack (opcodeField ir) (drField ir) (saField ir) (sbField ir) = ir := by
  apply BitVec.eq_of_getLsbD_eq
  intro i hi
  simp only [pack_getLsbD, opcodeField, drField, saField, sbField, BitVec.getLsbD_extractLsb']
  rcases Nat.lt_or_ge i 3 with h | h
  · simp [h]
  · rcases Nat.lt_or_ge i 6 with h' | h'
    · simp [show ¬i < 3 by omega, h', show i - 3 < 3 by omega, show 3 + (i - 3) = i by omega]
    · rcases Nat.lt_or_ge i 9 with h'' | h''
      · simp [show ¬i < 3 by omega, show ¬i < 6 by omega, h'', show i - 6 < 3 by omega,
          show 6 + (i - 6) = i by omega]
      · simp [show ¬i < 3 by omega, show ¬i < 6 by omega, show ¬i < 9 by omega,
          show i - 9 < 7 by omega, show 9 + (i - 9) = i by omega]

/-! ### Operand codes -/

@[simp] theorem regOfField_fieldOfReg (r : Reg) : regOfField (fieldOfReg r) = r := by
  apply Fin.ext
  have := r.isLt
  simp only [regOfField, fieldOfReg, BitVec.toNat_ofNat]
  omega

@[simp] theorem fieldOfReg_regOfField (f : BitVec 3) : fieldOfReg (regOfField f) = f := by
  simp [regOfField, fieldOfReg]

/-- The bits of AD. -/
theorem adField_getLsbD (l r : BitVec 3) (i : Nat) :
    (adField l r).getLsbD i = if i < 3 then r.getLsbD i else l.getLsbD (i - 3) := by
  simp only [adField, BitVec.getLsbD_cast, BitVec.getLsbD_append]

/-- The two halves of AD make up AD. -/
@[simp] theorem adField_halves (ad : Int) : adField (adLeft ad) (adRight ad) = BitVec.ofInt 6 ad := by
  apply BitVec.eq_of_getLsbD_eq
  intro i hi
  simp only [adField_getLsbD, adLeft, adRight, BitVec.getLsbD_extractLsb']
  rcases Nat.lt_or_ge i 3 with h | h
  · simp [h]
  · simp [show ¬i < 3 by omega, show i - 3 < 3 by omega, show 3 + (i - 3) = i by omega]

@[simp] theorem adLeft_adOfFields (l r : BitVec 3) : adLeft (adOfFields l r) = l := by
  apply BitVec.eq_of_getLsbD_eq
  intro i hi
  simp [adLeft, adOfFields, adField_getLsbD, hi]

@[simp] theorem adRight_adOfFields (l r : BitVec 3) : adRight (adOfFields l r) = r := by
  apply BitVec.eq_of_getLsbD_eq
  intro i hi
  simp [adRight, adOfFields, adField_getLsbD, hi]

/-- An AD in range is read back from its halves. -/
theorem adOfFields_adLeft_adRight {ad : Int} (h : adInRange ad = true) :
    adOfFields (adLeft ad) (adRight ad) = ad := by
  simp only [adInRange, Bool.and_eq_true, decide_eq_true_eq] at h
  rw [adOfFields, adField_halves, BitVec.toInt_ofInt]
  simp only [Int.bmod]
  omega

/-- AD is in range whatever its halves. -/
theorem adInRange_adOfFields (l r : BitVec 3) : adInRange (adOfFields l r) = true := by
  have h₁ := BitVec.le_toInt (adField l r)
  have h₂ := BitVec.toInt_lt (x := adField l r)
  simp only [adInRange, adOfFields, Bool.and_eq_true]
  exact ⟨decide_eq_true (by omega), decide_eq_true (by omega)⟩

/-! ### Decoding -/

/-- A word decodes to an instruction exactly when its opcode field is an opcode. -/
theorem decode_eq_ok {ir : Word} {i : Instr} :
    decode ir = .ok i ↔
      ∃ o : Opcode, opcodeField ir = o.bits ∧ i = o.instr (drField ir) (saField ir) (sbField ir) := by
  unfold decode
  constructor
  · intro h
    split at h
    · rename_i o ho
      exact ⟨o, (Opcode.ofBits_eq_some.1 ho).symm, by cases h; rfl⟩
    · cases h
  · rintro ⟨o, ho, rfl⟩
    rw [ho, Opcode.ofBits_bits]

/-- The words of an opcode decode to that opcode's instruction with their fields. -/
theorem decode_pack (o : Opcode) (dr sa sb : BitVec 3) :
    decode (pack o.bits dr sa sb) = .ok (o.instr dr sa sb) :=
  decode_eq_ok.2 ⟨o, by simp, by simp⟩

end Sys2Proof
end

