-- ==== Sys2Proof/Laws/Memory.lean ====
section
/-! SUPPORT. The laws of the data memory and of a program: read after write, and that every write keeps the
canonical form. -/

namespace Sys2Proof.Machine

/-! ### Reading after a write; no assumption on the form of the memory -/

theorem Memory.read_cons (k : Nat) (w : Word) (m : Memory) (a : Nat) :
    Memory.read ((k, w) :: m) a = if k = a then w else Memory.read m a := rfl

theorem Memory.erase_cons (k : Nat) (w : Word) (m : Memory) (a : Nat) :
    Memory.erase ((k, w) :: m) a = if k = a then Memory.erase m a else (k, w) :: Memory.erase m a := by
  by_cases h : k = a <;> simp [Memory.erase, h]

theorem Memory.read_erase_self (m : Memory) (a : Nat) : (m.erase a).read a = Config.unlistedWord := by
  induction m with
  | nil => rfl
  | cons c m ih =>
    obtain ⟨k, w⟩ := c
    rw [Memory.erase_cons]
    split
    · exact ih
    · rename_i h; rw [Memory.read_cons, if_neg h]; exact ih

theorem Memory.read_erase_ne (m : Memory) {a b : Nat} (hb : b ≠ a) : (m.erase a).read b = m.read b := by
  induction m with
  | nil => rfl
  | cons c m ih =>
    obtain ⟨k, w⟩ := c
    rw [Memory.erase_cons, Memory.read_cons]
    split
    · rename_i h; rw [if_neg (by omega)]; exact ih
    · rw [Memory.read_cons, ih]

theorem Memory.read_insert_ne (m : Memory) {a b : Nat} (v : Word) (hb : b ≠ a) :
    (m.insert a v).read b = m.read b := by
  induction m with
  | nil => simp [Memory.insert, Memory.read, Ne.symm hb]
  | cons c m ih =>
    obtain ⟨k, w⟩ := c
    simp only [Memory.insert]
    split
    · rw [Memory.read_cons, if_neg (Ne.symm hb)]
    · rw [Memory.read_cons, Memory.read_cons, ih]

theorem Memory.read_insert_erase_self (m : Memory) (a : Nat) (v : Word) :
    ((m.erase a).insert a v).read a = v := by
  induction m with
  | nil => simp [Memory.erase, Memory.insert, Memory.read]
  | cons c m ih =>
    obtain ⟨k, w⟩ := c
    rw [Memory.erase_cons]
    split
    · exact ih
    · rename_i h
      simp only [Memory.insert]
      split
      · simp [Memory.read]
      · rw [Memory.read_cons, if_neg h]; exact ih

/-- A read at the address written gives the value written. -/
@[simp] theorem Memory.read_write_self (m : Memory) (a : Nat) (v : Word) : (m.write a v).read a = v := by
  unfold Memory.write
  split
  · rename_i h; rw [Memory.read_erase_self, h]
  · exact Memory.read_insert_erase_self m a v

/-- A write leaves every other address as it was. -/
theorem Memory.read_write_ne (m : Memory) {a b : Nat} (v : Word) (hb : b ≠ a) :
    (m.write a v).read b = m.read b := by
  unfold Memory.write
  split
  · exact Memory.read_erase_ne m hb
  · rw [Memory.read_insert_ne _ v hb, Memory.read_erase_ne m hb]

/-! ### The canonical form -/

theorem Memory.wfAbove_cons (k : Nat) (w : Word) (m : Memory) (a : Nat) :
    Memory.wfAbove ((k, w) :: m) a = true ↔
      a < k ∧ k < Config.memWords ∧ w ≠ Config.unlistedWord ∧ Memory.wfAbove m k = true := by
  simp [Memory.wfAbove, and_assoc]

theorem Memory.wf_cons (k : Nat) (w : Word) (m : Memory) :
    Memory.wf ((k, w) :: m) = true ↔
      k < Config.memWords ∧ w ≠ Config.unlistedWord ∧ Memory.wfAbove m k = true := by
  simp [Memory.wf, and_assoc]

/-- A memory of canonical form above some address is of canonical form. -/
theorem Memory.wf_of_wfAbove {m : Memory} {a : Nat} (h : Memory.wfAbove m a = true) : m.wf = true := by
  cases m with
  | nil => rfl
  | cons c m =>
    obtain ⟨k, w⟩ := c
    exact (Memory.wf_cons k w m).2 ((Memory.wfAbove_cons k w m a).1 h).2

theorem Memory.wfAbove_mono {m : Memory} {a b : Nat} (hab : a ≤ b) (h : Memory.wfAbove m b = true) :
    Memory.wfAbove m a = true := by
  cases m with
  | nil => rfl
  | cons c m =>
    obtain ⟨k, w⟩ := c
    obtain ⟨h1, h2⟩ := (Memory.wfAbove_cons k w m b).1 h
    exact (Memory.wfAbove_cons k w m a).2 ⟨by omega, h2⟩

theorem Memory.wfAbove_erase {m : Memory} {a : Nat} (b : Nat) (h : Memory.wfAbove m a = true) :
    Memory.wfAbove (m.erase b) a = true := by
  induction m generalizing a with
  | nil => rfl
  | cons c m ih =>
    obtain ⟨k, w⟩ := c
    obtain ⟨h1, h2, h3, h4⟩ := (Memory.wfAbove_cons k w m a).1 h
    rw [Memory.erase_cons]
    split
    · exact ih (Memory.wfAbove_mono (by omega) h4)
    · exact (Memory.wfAbove_cons k w _ a).2 ⟨h1, h2, h3, ih h4⟩

theorem Memory.wf_erase {m : Memory} (b : Nat) (h : m.wf = true) : (m.erase b).wf = true := by
  cases m with
  | nil => rfl
  | cons c m =>
    obtain ⟨k, w⟩ := c
    obtain ⟨h2, h3, h4⟩ := (Memory.wf_cons k w m).1 h
    rw [Memory.erase_cons]
    split
    · exact Memory.wf_of_wfAbove (Memory.wfAbove_erase b h4)
    · exact (Memory.wf_cons k w _).2 ⟨h2, h3, Memory.wfAbove_erase b h4⟩

/-- No entry of the memory has the address. -/
theorem Memory.not_listed_erase (m : Memory) (b : Nat) : ∀ c ∈ m.erase b, c.1 ≠ b := by
  intro c hc
  simpa [Memory.erase] using (List.mem_filter.1 hc).2

theorem Memory.wfAbove_insert {m : Memory} {a b : Nat} {v : Word} (hab : a < b) (hb : b < Config.memWords)
    (hv : v ≠ Config.unlistedWord) (hm : ∀ c ∈ m, c.1 ≠ b) (h : Memory.wfAbove m a = true) :
    Memory.wfAbove (m.insert b v) a = true := by
  induction m generalizing a with
  | nil => exact (Memory.wfAbove_cons b v [] a).2 ⟨hab, hb, hv, rfl⟩
  | cons c m ih =>
    obtain ⟨k, w⟩ := c
    obtain ⟨h1, h2, h3, h4⟩ := (Memory.wfAbove_cons k w m a).1 h
    simp only [Memory.insert]
    split
    · rename_i hbk
      exact (Memory.wfAbove_cons b v _ a).2 ⟨hab, hb, hv, (Memory.wfAbove_cons k w m b).2 ⟨hbk, h2, h3, h4⟩⟩
    · have hk : k ≠ b := hm (k, w) (by simp)
      exact (Memory.wfAbove_cons k w _ a).2
        ⟨h1, h2, h3, ih (by omega) (fun c hc => hm c (by simp [hc])) h4⟩

theorem Memory.wf_insert {m : Memory} {b : Nat} {v : Word} (hb : b < Config.memWords)
    (hv : v ≠ Config.unlistedWord) (hm : ∀ c ∈ m, c.1 ≠ b) (h : m.wf = true) :
    (m.insert b v).wf = true := by
  cases m with
  | nil => exact (Memory.wf_cons b v []).2 ⟨hb, hv, rfl⟩
  | cons c m =>
    obtain ⟨k, w⟩ := c
    obtain ⟨h2, h3, h4⟩ := (Memory.wf_cons k w m).1 h
    simp only [Memory.insert]
    split
    · rename_i hbk
      exact (Memory.wf_cons b v _).2 ⟨hb, hv, (Memory.wfAbove_cons k w m b).2 ⟨hbk, h2, h3, h4⟩⟩
    · have hk : k ≠ b := hm (k, w) (by simp)
      exact (Memory.wf_cons k w _).2
        ⟨h2, h3, Memory.wfAbove_insert (by omega) hb hv (fun c hc => hm c (by simp [hc])) h4⟩

/-- A write at an address that exists keeps the canonical form. -/
theorem Memory.wf_write {m : Memory} {a : Nat} (v : Word) (ha : a < Config.memWords) (h : m.wf = true) :
    (m.write a v).wf = true := by
  unfold Memory.write
  split
  · exact Memory.wf_erase a h
  · rename_i hv
    exact Memory.wf_insert ha hv (Memory.not_listed_erase m a) (Memory.wf_erase a h)

/-- Below the first listed address everything reads as unlisted. -/
theorem Memory.read_of_wfAbove {m : Memory} {a b : Nat} (h : Memory.wfAbove m a = true) (hb : b ≤ a) :
    m.read b = Config.unlistedWord := by
  induction m generalizing a with
  | nil => rfl
  | cons c m ih =>
    obtain ⟨k, w⟩ := c
    obtain ⟨h1, -, -, h4⟩ := (Memory.wfAbove_cons k w m a).1 h
    rw [Memory.read_cons, if_neg (by omega)]
    exact ih h4 (by omega)

theorem State.reset_dm_wf : State.reset.dm.wf = true := rfl

/-! ### Programs -/

/-- An address holds a word exactly when it is the base plus the word's index. -/
theorem Program.read_eq_some {p : Program} {a w : Word} :
    p.read a = some w ↔ ∃ k, p.words[k]? = some w ∧ a.toNat = p.base.toNat + k := by
  unfold Program.read
  constructor
  · intro h
    split at h
    · exact ⟨_, h, by omega⟩
    · cases h
  · rintro ⟨k, hk, ha⟩
    rw [if_pos (by omega), show a.toNat - p.base.toNat = k by omega, hk]

/-- A placed word is read back at its address. -/
@[simp] theorem Program.read_place (p : Program) (a w : Word) : (p.place a w).read a = some w := by
  unfold Program.place
  split
  · rename_i x h
    obtain ⟨k, hk, ha⟩ := Program.read_eq_some.1 h
    obtain ⟨hlt, -⟩ := List.getElem?_eq_some_iff.1 hk
    refine Program.read_eq_some.2 ⟨k, ?_, ha⟩
    rw [show a.toNat - p.base.toNat = k by omega]
    simp [hlt]
  · simp [Program.read]

/-- Placing a word keeps a program from wrapping. -/
theorem Program.wf_place {p : Program} (a w : Word) (h : p.wf = true) : (p.place a w).wf = true := by
  unfold Program.place
  split
  · simpa [Program.wf] using h
  · have := a.isLt
    exact decide_eq_true (by simp only [Config.memWords, List.length_singleton]; omega)

end Sys2Proof.Machine
end

