-- ==== Sys2Proof/Laws/State.lean ====
section
/-! SUPPORT. One lemma for each field and each update of the state, so that no proof unfolds an update. -/

namespace Sys2Proof.Machine

variable (s : State) (r : Reg) (a v t w : Word) (rd : Reg) (b : Bool) (ad : Int)

/-! ### Writing a register -/

@[simp] theorem State.writeReg_pc : (s.writeReg r v).pc = s.pc := rfl
@[simp] theorem State.writeReg_n : (s.writeReg r v).n = s.n := rfl
@[simp] theorem State.writeReg_z : (s.writeReg r v).z = s.z := rfl
@[simp] theorem State.writeReg_dm : (s.writeReg r v).dm = s.dm := rfl
@[simp] theorem State.writeReg_im : (s.writeReg r v).im = s.im := rfl
@[simp] theorem State.writeReg_endPc : (s.writeReg r v).endPc = s.endPc := rfl

/-! ### Writing a data word -/

@[simp] theorem State.memWrite_regs : (s.memWrite a v).regs = s.regs := rfl
@[simp] theorem State.memWrite_pc : (s.memWrite a v).pc = s.pc := rfl
@[simp] theorem State.memWrite_n : (s.memWrite a v).n = s.n := rfl
@[simp] theorem State.memWrite_z : (s.memWrite a v).z = s.z := rfl
@[simp] theorem State.memWrite_dm : (s.memWrite a v).dm = s.dm.write a.toNat v := rfl
@[simp] theorem State.memWrite_im : (s.memWrite a v).im = s.im := rfl
@[simp] theorem State.memWrite_endPc : (s.memWrite a v).endPc = s.endPc := rfl

/-! ### Writing the program counter -/

@[simp] theorem State.setPc_regs : (s.setPc t).regs = s.regs := rfl
@[simp] theorem State.setPc_pc : (s.setPc t).pc = t := rfl
@[simp] theorem State.setPc_n : (s.setPc t).n = s.n := rfl
@[simp] theorem State.setPc_z : (s.setPc t).z = s.z := rfl
@[simp] theorem State.setPc_dm : (s.setPc t).dm = s.dm := rfl
@[simp] theorem State.setPc_im : (s.setPc t).im = s.im := rfl
@[simp] theorem State.setPc_endPc : (s.setPc t).endPc = s.endPc := rfl

@[simp] theorem State.nextPc_regs : s.nextPc.regs = s.regs := rfl
@[simp] theorem State.nextPc_pc : s.nextPc.pc = s.pc + 1 := rfl
@[simp] theorem State.nextPc_n : s.nextPc.n = s.n := rfl
@[simp] theorem State.nextPc_z : s.nextPc.z = s.z := rfl
@[simp] theorem State.nextPc_dm : s.nextPc.dm = s.dm := rfl
@[simp] theorem State.nextPc_im : s.nextPc.im = s.im := rfl
@[simp] theorem State.nextPc_endPc : s.nextPc.endPc = s.endPc := rfl

/-! ### Writing the status bits -/

@[simp] theorem State.setNZ_regs : (s.setNZ v).regs = s.regs := rfl
@[simp] theorem State.setNZ_pc : (s.setNZ v).pc = s.pc := rfl
@[simp] theorem State.setNZ_n : (s.setNZ v).n = negFlag v := rfl
@[simp] theorem State.setNZ_z : (s.setNZ v).z = zeroFlag v := rfl
@[simp] theorem State.setNZ_dm : (s.setNZ v).dm = s.dm := rfl
@[simp] theorem State.setNZ_im : (s.setNZ v).im = s.im := rfl
@[simp] theorem State.setNZ_endPc : (s.setNZ v).endPc = s.endPc := rfl

/-! ### The ends of an instruction -/

@[simp] theorem State.resultNZ_regs : (s.resultNZ rd v).regs = (s.writeReg rd v).regs := rfl
@[simp] theorem State.resultNZ_pc : (s.resultNZ rd v).pc = s.pc + 1 := rfl
@[simp] theorem State.resultNZ_n : (s.resultNZ rd v).n = negFlag v := rfl
@[simp] theorem State.resultNZ_z : (s.resultNZ rd v).z = zeroFlag v := rfl
@[simp] theorem State.resultNZ_dm : (s.resultNZ rd v).dm = s.dm := rfl
@[simp] theorem State.resultNZ_im : (s.resultNZ rd v).im = s.im := rfl
@[simp] theorem State.resultNZ_endPc : (s.resultNZ rd v).endPc = s.endPc := rfl

@[simp] theorem State.resultKeep_regs : (s.resultKeep rd v).regs = (s.writeReg rd v).regs := rfl
@[simp] theorem State.resultKeep_pc : (s.resultKeep rd v).pc = s.pc + 1 := rfl
@[simp] theorem State.resultKeep_n : (s.resultKeep rd v).n = s.n := rfl
@[simp] theorem State.resultKeep_z : (s.resultKeep rd v).z = s.z := rfl
@[simp] theorem State.resultKeep_dm : (s.resultKeep rd v).dm = s.dm := rfl
@[simp] theorem State.resultKeep_im : (s.resultKeep rd v).im = s.im := rfl
@[simp] theorem State.resultKeep_endPc : (s.resultKeep rd v).endPc = s.endPc := rfl

@[simp] theorem State.branchIf_regs : (s.branchIf b v ad).regs = s.regs := rfl
@[simp] theorem State.branchIf_pc :
    (s.branchIf b v ad).pc = if b then s.branchTarget ad else s.pc + 1 := rfl
@[simp] theorem State.branchIf_n : (s.branchIf b v ad).n = negFlag v := rfl
@[simp] theorem State.branchIf_z : (s.branchIf b v ad).z = zeroFlag v := rfl
@[simp] theorem State.branchIf_dm : (s.branchIf b v ad).dm = s.dm := rfl
@[simp] theorem State.branchIf_im : (s.branchIf b v ad).im = s.im := rfl
@[simp] theorem State.branchIf_endPc : (s.branchIf b v ad).endPc = s.endPc := rfl

/-! ### Placing a word from outside -/

@[simp] theorem State.placeWord_regs : (s.placeWord w).regs = s.regs := rfl
@[simp] theorem State.placeWord_pc : (s.placeWord w).pc = s.pc := rfl
@[simp] theorem State.placeWord_n : (s.placeWord w).n = s.n := rfl
@[simp] theorem State.placeWord_z : (s.placeWord w).z = s.z := rfl
@[simp] theorem State.placeWord_dm : (s.placeWord w).dm = s.dm := rfl
@[simp] theorem State.placeWord_im : (s.placeWord w).im = s.im.place s.pc w := rfl

end Sys2Proof.Machine
end

