-- ==== Sys2Proof/Laws/Ops.lean ====
section
/-! SUPPORT. For each shared operation, one lemma that says all it does, in the words of Safety.lean. -/

namespace Sys2Proof.Machine

variable (s : State) (v : Word)

/-! ### Reading after an update -/

@[simp] theorem State.readReg_writeReg_self (r : Reg) : (s.writeReg r v).readReg r = v := by
  simp [State.readReg, State.writeReg, Vector.get_eq_getElem]

theorem State.readReg_writeReg_ne {r q : Reg} (h : q ≠ r) : (s.writeReg r v).readReg q = s.readReg q := by
  have : r.val ≠ q.val := fun e => h (Fin.ext e.symm)
  simp [State.readReg, State.writeReg, Vector.get_eq_getElem, this]

/-- Reading a register depends on the register file only. -/
theorem State.readReg_congr {s t : State} (h : t.regs = s.regs) (r : Reg) : t.readReg r = s.readReg r := by
  simp [State.readReg, h]

/-- Reading a data word depends on the data memory only. -/
theorem State.memRead_congr {s t : State} (h : t.dm = s.dm) (a : Word) : t.memRead a = s.memRead a := by
  simp [State.memRead, h]

@[simp] theorem State.memRead_memWrite_self (a : Word) : (s.memWrite a v).memRead a = v := by
  simp [State.memRead]

theorem State.memRead_memWrite_ne {a b : Word} (h : b ≠ a) : (s.memWrite a v).memRead b = s.memRead b :=
  Memory.read_write_ne _ v fun e => h (BitVec.eq_of_toNat_eq e)

/-! ### The shared operations -/

theorem State.writeReg_spec (r : Reg) : WritesOnlyReg s (s.writeReg r v) r v :=
  ⟨by simp, fun _ h => State.readReg_writeReg_ne s v h⟩

theorem State.memWrite_spec (a : Word) : WritesOnlyMem s (s.memWrite a v) a v :=
  ⟨by simp, fun _ h => State.memRead_memWrite_ne s v h⟩

/-- The status bits computed by Flags.lean are those of 10_state.md R16. -/
theorem setsNZ_of_flags {t : State} {v : Word} (hn : t.n = negFlag v) (hz : t.z = zeroFlag v) : SetsNZ t v := by
  refine ⟨?_, ?_⟩
  · rw [hn, negFlag, BitVec.msb_eq_getLsbD_last]
  · rw [hz, zeroFlag, beq_iff_eq]

/-- What the end of an instruction with status bits does. -/
theorem State.resultNZ_spec (rd : Reg) : RegResultNZ s (s.resultNZ rd v) rd v :=
  ⟨⟨State.readReg_writeReg_self s v rd, fun _ h => State.readReg_writeReg_ne s v h⟩,
    setsNZ_of_flags rfl rfl, rfl, fun _ => rfl, rfl, rfl⟩

/-- What the end of an instruction without status bits does. -/
theorem State.resultKeep_spec (rd : Reg) : RegResultKeep s (s.resultKeep rd v) rd v :=
  ⟨⟨State.readReg_writeReg_self s v rd, fun _ h => State.readReg_writeReg_ne s v h⟩,
    ⟨rfl, rfl⟩, rfl, fun _ => rfl, rfl, rfl⟩

/-- What the end of a conditional branch does. -/
theorem State.branchIf_spec (b : Bool) (ad : Int) :
    KeepsRegs s (s.branchIf b v ad) ∧ SetsNZ (s.branchIf b v ad) v ∧ KeepsMem s (s.branchIf b v ad) ∧
      KeepsLaunch s (s.branchIf b v ad) ∧
      (s.branchIf b v ad).pc = if b then s.branchTarget ad else s.pc + 1 :=
  ⟨fun _ => rfl, setsNZ_of_flags rfl rfl, fun _ => rfl, ⟨rfl, rfl⟩, rfl⟩

/-! ### Operand values -/

theorem immediate_toNat {op : Nat} (h : op < 8) : (immediate op).toNat = op := by
  simp only [immediate, zext16, BitVec.toNat_setWidth, BitVec.toNat_ofNat]
  omega

theorem branchOffset_toInt {ad : Int} (h₁ : -32 ≤ ad) (h₂ : ad ≤ 31) : (branchOffset ad).toInt = ad := by
  rw [branchOffset, sext16, BitVec.toInt_signExtend_of_le (by decide), BitVec.toInt_ofInt]
  simp only [Int.bmod]
  omega

theorem shiftRight_toNat : (shiftRight v).toNat = v.toNat / 2 := by
  simp [shiftRight, Nat.shiftRight_succ]

theorem shiftLeft_eq_add : shiftLeft v = v + v := by
  apply BitVec.eq_of_toNat_eq
  simp [shiftLeft, Nat.shiftLeft_eq, BitVec.toNat_add]
  omega

theorem negFlag_eq_toInt : negFlag v = decide (v.toInt < 0) := by
  rw [negFlag, BitVec.msb_eq_toInt]

end Sys2Proof.Machine
end

