-- ==== Sys2Proof/Laws/PerInstr.lean ====
section
/-! SUPPORT. Facts about every instruction as syntax, one lemma for each constructor. -/

namespace Sys2Proof.Laws

/-- The word of an instruction carries that instruction's opcode in `IR[15:9]` (30_encoding.md R58), and it is
0 in every bit the instruction does not use (30_encoding.md R60). -/
def EncodesItsOpcode.Statement (i : Instr) : Prop :=
  opcodeField (encode i) = i.opcode.bits ∧ encode i &&& ~~~ i.opcode.usedMask = 0#16

variable (op : BitVec 7) (dr sa sb : BitVec 3)

/-- A word whose SB field is 0 is 0 in the bits of that field. -/
theorem pack_sb_zero : pack op dr sa 0#3 &&& ~~~0b1111111111111000#16 = 0#16 := by
  apply BitVec.eq_of_getLsbD_eq
  intro i hi
  rw [BitVec.getLsbD_and, pack_getLsbD]
  interval_cases i <;> simp

/-- A word whose SA field is 0 is 0 in the bits of that field. -/
theorem pack_sa_zero : pack op dr 0#3 sb &&& ~~~0b1111111111000111#16 = 0#16 := by
  apply BitVec.eq_of_getLsbD_eq
  intro i hi
  rw [BitVec.getLsbD_and, pack_getLsbD]
  interval_cases i <;> simp

/-- A word whose DR field is 0 is 0 in the bits of that field. -/
theorem pack_dr_zero : pack op 0#3 sa sb &&& ~~~0b1111111000111111#16 = 0#16 := by
  apply BitVec.eq_of_getLsbD_eq
  intro i hi
  rw [BitVec.getLsbD_and, pack_getLsbD]
  interval_cases i <;> simp

/-- A word whose DR and SB fields are 0 is 0 in the bits of those fields. -/
theorem pack_dr_sb_zero : pack op 0#3 sa 0#3 &&& ~~~0b1111111000111000#16 = 0#16 := by
  apply BitVec.eq_of_getLsbD_eq
  intro i hi
  rw [BitVec.getLsbD_and, pack_getLsbD]
  interval_cases i <;> simp

/-- An instruction that uses every bit leaves none unused. -/
theorem pack_all_used : pack op dr sa sb &&& ~~~0b1111111111111111#16 = 0#16 := BitVec.and_zero

namespace EncodesItsOpcode

theorem mova (rd ra : Reg) : Statement (.mova rd ra) := ⟨opcodeField_pack .., pack_sb_zero ..⟩
theorem inc (rd ra : Reg) : Statement (.inc rd ra) := ⟨opcodeField_pack .., pack_sb_zero ..⟩
theorem add (rd ra rb : Reg) : Statement (.add rd ra rb) := ⟨opcodeField_pack .., pack_all_used ..⟩
theorem sub (rd ra rb : Reg) : Statement (.sub rd ra rb) := ⟨opcodeField_pack .., pack_all_used ..⟩
theorem dec (rd ra : Reg) : Statement (.dec rd ra) := ⟨opcodeField_pack .., pack_sb_zero ..⟩
theorem and (rd ra rb : Reg) : Statement (.and rd ra rb) := ⟨opcodeField_pack .., pack_all_used ..⟩
theorem or (rd ra rb : Reg) : Statement (.or rd ra rb) := ⟨opcodeField_pack .., pack_all_used ..⟩
theorem xor (rd ra rb : Reg) : Statement (.xor rd ra rb) := ⟨opcodeField_pack .., pack_all_used ..⟩
theorem not (rd ra : Reg) : Statement (.not rd ra) := ⟨opcodeField_pack .., pack_sb_zero ..⟩
theorem movb (rd rb : Reg) : Statement (.movb rd rb) := ⟨opcodeField_pack .., pack_sa_zero ..⟩
theorem shr (rd rb : Reg) : Statement (.shr rd rb) := ⟨opcodeField_pack .., pack_sa_zero ..⟩
theorem shl (rd rb : Reg) : Statement (.shl rd rb) := ⟨opcodeField_pack .., pack_sa_zero ..⟩
theorem ldi (rd : Reg) (op : Nat) : Statement (.ldi rd op) := ⟨opcodeField_pack .., pack_sa_zero ..⟩
theorem adi (rd ra : Reg) (op : Nat) : Statement (.adi rd ra op) := ⟨opcodeField_pack .., pack_all_used ..⟩
theorem ld (rd ra : Reg) : Statement (.ld rd ra) := ⟨opcodeField_pack .., pack_sb_zero ..⟩
theorem st (ra rb : Reg) : Statement (.st ra rb) := ⟨opcodeField_pack .., pack_dr_zero ..⟩
theorem brz (ra : Reg) (ad : Int) : Statement (.brz ra ad) := ⟨opcodeField_pack .., pack_all_used ..⟩
theorem brn (ra : Reg) (ad : Int) : Statement (.brn ra ad) := ⟨opcodeField_pack .., pack_all_used ..⟩
theorem jmp (ra : Reg) : Statement (.jmp ra) := ⟨opcodeField_pack .., pack_dr_sb_zero ..⟩

end EncodesItsOpcode

end Sys2Proof.Laws
end

