-- ==== Sys2Proof/Laws/Step.lean ====
section
/-! SUPPORT. What a step can do, said once: every answer of step comes from the end-of-run test, from the fetch
and decode, or from one instruction. -/

namespace Sys2Proof.Machine

/-! ### The fetch -/

theorem State.fetchInstr_eq_ok {s : State} {i : Instr} :
    s.fetchInstr = .ok i ↔ ∃ ir, s.iMemRead s.pc = some ir ∧ decode ir = .ok i := by
  unfold State.fetchInstr
  constructor
  · intro h
    split at h
    · cases h
    · rename_i ir hir
      split at h
      · rename_i j hj
        cases h
        exact ⟨ir, hir, hj⟩
      · cases h
  · rintro ⟨ir, hir, hi⟩
    simp [hir, hi]

theorem State.fetchInstr_eq_error {s : State} {f : Fault} :
    s.fetchInstr = .error f ↔
      (s.iMemRead s.pc = none ∧ f = .fetchOutsideProgram s.pc) ∨
        ∃ ir e, s.iMemRead s.pc = some ir ∧ decode ir = .error e ∧ f = .undefinedOpcode s.pc ir := by
  unfold State.fetchInstr
  constructor
  · intro h
    split at h
    · rename_i hir
      cases h
      exact .inl ⟨hir, rfl⟩
    · rename_i ir hir
      split at h
      · cases h
      · rename_i e he
        cases h
        exact .inr ⟨ir, e, hir, he, rfl⟩
  · rintro (⟨hir, rfl⟩ | ⟨ir, e, hir, he, rfl⟩)
    · simp [hir]
    · simp [hir, he]

/-! ### The step -/

/-- What a step answers is one of three things, each with its whole condition. -/
theorem step_cases (s : State) :
    (s.pc = s.endPc ∧ s.nextInstr = none ∧ step s = .refused .runEnded) ∨
    (s.pc ≠ s.endPc ∧ ∃ f, s.fetchInstr = .error f ∧ s.nextInstr = none ∧ step s = .fault f) ∨
    (s.pc ≠ s.endPc ∧ ∃ i, s.fetchInstr = .ok i ∧ s.nextInstr = some i ∧ step s = exec i s) := by
  by_cases h : s.pc = s.endPc
  · exact .inl ⟨h, by simp [State.nextInstr, State.atEnd, h], by simp [step, State.atEnd, h]⟩
  · refine .inr ?_
    have h' : s.atEnd = false := by simpa [State.atEnd] using h
    cases hf : s.fetchInstr with
    | error f => exact .inl ⟨h, f, rfl, by simp [State.nextInstr, h', hf], by simp [step, h', hf]⟩
    | ok i => exact .inr ⟨h, i, rfl, by simp [State.nextInstr, h', hf], by simp [step, h', hf]⟩

/-- A step that answers a next state executed the next instruction. -/
theorem exec_of_step {s t : State} (h : step s = .next t) : ∃ i, s.nextInstr = some i ∧ exec i s = .next t := by
  rcases step_cases s with ⟨-, -, hs⟩ | ⟨-, f, -, -, hs⟩ | ⟨-, i, -, hi, hs⟩
  · rw [hs] at h; cases h
  · rw [hs] at h; cases h
  · exact ⟨i, hi, hs ▸ h⟩

/-- The step executes the next instruction, if there is one. -/
theorem step_of_nextInstr {s : State} {i : Instr} (h : s.nextInstr = some i) : step s = exec i s := by
  rcases step_cases s with ⟨-, hn, -⟩ | ⟨-, f, -, hn, -⟩ | ⟨-, j, -, hn, hs⟩
  · rw [hn] at h; cases h
  · rw [hn] at h; cases h
  · rw [hn] at h; cases h; exact hs

/-! ### Runs -/

theorem run_zero (s : State) : run 0 s = .next s := rfl

theorem run_succ_next {s t : State} (k : Nat) (h : step s = .next t) : run (k + 1) s = run k t := by
  have h' : Sys2Proof.core.step s = _ := h
  simp only [run, Host.Core.run, h']
  rfl

theorem run_succ_fault {s : State} {f : Fault} (k : Nat) (h : step s = .fault f) : run (k + 1) s = .fault f := by
  have h' : Sys2Proof.core.step s = _ := h
  simp only [run, Host.Core.run, h']
  rfl

theorem run_succ_refused {s : State} {r : Refusal} (k : Nat) (h : step s = .refused r) :
    run (k + 1) s = .refused r := by
  have h' : Sys2Proof.core.step s = _ := h
  simp only [run, Host.Core.run, h']
  rfl

/-- A run that answers a next state after at least one step took one step to a next state. -/
theorem step_of_run_succ {s u : State} {k : Nat} (h : run (k + 1) s = .next u) :
    ∃ t, step s = .next t ∧ run k t = .next u := by
  cases hs : step s with
  | next t => exact ⟨t, rfl, by rw [← run_succ_next k hs]; exact h⟩
  | fault f => rw [run_succ_fault k hs] at h; cases h
  | refused r => rw [run_succ_refused k hs] at h; cases h

/-- What every step keeps, every run keeps. -/
theorem run_keeps {P : State → Prop} (hP : ∀ s t, P s → step s = .next t → P t) {k : Nat} {s t : State}
    (hs : P s) (h : run k s = .next t) : P t := by
  induction k generalizing s with
  | zero => cases h; exact hs
  | succ k ih =>
    obtain ⟨u, hu, hk⟩ := step_of_run_succ h
    exact ih (hP s u hs hu) hk

end Sys2Proof.Machine
end

