-- ==== Sys2Proof/Tests/Slice0.lean ====
section
/-! SUPPORT. Tests whose expected results are the vectors of 95_test_vectors.md (V, W, X) or worked out from the
rule named, and for each statement with hypotheses a concrete case that meets them. -/

namespace Sys2Proof.Tests

open Sys2Proof Sys2Proof.Machine

/-! ### Helpers -/

/-- A state with the given pc, N, Z, registers and data words, the rest as at reset. -/
def st (pc : Word) (n z : Bool) (regs : List (Reg × Word)) (dm : List (Word × Word) := []) : State :=
  let s : State := { State.reset with pc := pc, n := n, z := z, endPc := 0x8888#16 }
  let s := regs.foldl (fun s c => s.writeReg c.1 c.2) s
  dm.foldl (fun s c => s.memWrite c.1 c.2) s

/-- Whether one step on a placed word gives a next state with the property. -/
def stepsTo (s : State) (w : Nat) (p : State → Bool) : Bool :=
  match step (s.withFetchWord 16 w) with
  | .next t => p t
  | .fault _ => false
  | .refused _ => false

/-- N, Z and pc are as given. -/
def nzpc (t : State) (n z : Bool) (pc : Word) : Bool := t.n == n && t.z == z && t.pc == pc

/-! ### Each check of WellFormed refuses an ill-formed operand (30_encoding.md R63) -/

theorem test_wf_ldi_op_eight_refused : (Instr.ldi 3 8).wellFormed = false := by decide
theorem test_wf_adi_op_eight_refused : (Instr.adi 3 1 8).wellFormed = false := by decide
theorem test_wf_brz_ad_high_refused : (Instr.brz 1 32).wellFormed = false := by decide
theorem test_wf_brz_ad_low_refused : (Instr.brz 1 (-33)).wellFormed = false := by decide
theorem test_wf_brn_ad_high_refused : (Instr.brn 1 32).wellFormed = false := by decide
theorem test_wf_brn_ad_low_refused : (Instr.brn 1 (-33)).wellFormed = false := by decide
theorem test_wf_ends_accepted :
    (Instr.ldi 3 7).wellFormed ∧ (Instr.brz 1 31).wellFormed ∧ (Instr.brn 1 (-32)).wellFormed := by decide

/-! ### Decoding: one word for each constructor, written out from its encoding (30_encoding.md R58) -/

theorem test_decode_mova : decode 0b0000000001010000#16 = .ok (.mova 1 2) := rfl
theorem test_decode_inc : decode 0b0000001011000000#16 = .ok (.inc 3 0) := rfl
theorem test_decode_add : decode 0b0000010000111110#16 = .ok (.add 0 7 6) := rfl
theorem test_decode_sub : decode 0b0000101010000001#16 = .ok (.sub 2 0 1) := rfl
theorem test_decode_dec : decode 0b0000110001101000#16 = .ok (.dec 1 5) := rfl
theorem test_decode_and : decode 0b0001000001010011#16 = .ok (.and 1 2 3) := rfl
theorem test_decode_or : decode 0b0001001100010001#16 = .ok (.or 4 2 1) := rfl
theorem test_decode_xor : decode 0b0001010000111011#16 = .ok (.xor 0 7 3) := rfl
theorem test_decode_not : decode 0b0001011011011000#16 = .ok (.not 3 3) := rfl
theorem test_decode_movb : decode 0b0001100001000010#16 = .ok (.movb 1 2) := rfl
theorem test_decode_shr : decode 0b0001101001000010#16 = .ok (.shr 1 2) := rfl
theorem test_decode_shl : decode 0b0001110010000100#16 = .ok (.shl 2 4) := rfl
theorem test_decode_ldi : decode 0b1001100011000101#16 = .ok (.ldi 3 5) := rfl
theorem test_decode_adi : decode 0b1000010010101010#16 = .ok (.adi 2 5 2) := rfl
theorem test_decode_ld : decode 0b0010000001100000#16 = .ok (.ld 1 4) := rfl
theorem test_decode_st : decode 0b0100000000100001#16 = .ok (.st 4 1) := rfl
theorem test_decode_brz : decode 0b1100000111100101#16 = .ok (.brz 4 (-3)) := rfl
theorem test_decode_brn : decode 0b1100001000010010#16 = .ok (.brn 2 2) := rfl
theorem test_decode_jmp : decode 0b1110000000111000#16 = .ok (.jmp 7) := rfl

/-- W3 to W6: unused fields are ignored. -/
theorem test_decode_unused_fields :
    decodeTableWord 16 0x1CBC = some (.shl 2 4) ∧ decodeTableWord 16 0x99FD = some (.ldi 7 5) ∧
    decodeTableWord 16 0xE1FF = some (.jmp 7) ∧ decodeTableWord 16 0x41E1 = some (.st 4 1) := by decide

/-- W7 to W14: undefined opcodes. -/
theorem test_decode_undefined_opcodes :
    [0x0600, 0x0E00, 0x1E00, 0x2200, 0x8000, 0xC400, 0xE200, 0xFFFF].all
      (fun w => decodeTableWord 16 w == none) = true := by decide

/-- 30_encoding.md R61: 109 of the 128 opcodes are undefined. -/
theorem test_undefined_opcode_count :
    ((List.range 128).filter fun k => (Opcode.ofBits (BitVec.ofNat 7 k)).isNone).length = 109 := by decide

/-- §Ex2b: the encoder reproduces the five printed encodings. -/
theorem test_encode_source_rows :
    encode (.add 0 7 6) = 0x043E#16 ∧ encode (.dec 1 5) = 0x0C68#16 ∧ encode (.shl 2 4) = 0x1C84#16 ∧
    encode (.not 3 3) = 0x16D8#16 ∧ encode (.or 4 2 1) = 0x1311#16 := by decide

/-- The branch encodings of V52 and V64. -/
theorem test_encode_branches : encode (.brz 4 (-3)) = 0xC1E5#16 ∧ encode (.brn 2 (-1)) = 0xC3D7#16 := by decide

/-- The assembler lines of 30_encoding.md R63. -/
theorem test_assembly_lines :
    asmLine (.add 0 7 6) = "ADD R0, R7, R6" ∧ asmLine (.brz 4 (-3)) = "BRZ R4, -3" ∧
    asmLine (.st 4 1) = "ST R4, R1" := by decide

/-- 30_encoding.md R63: an operand outside its range is an assembly error. -/
theorem test_assembly_errors :
    assemble .ldi [.reg 3, .num 8] = none ∧ assemble .jmp [.reg 8] = none ∧
    assemble .brz [.reg 1, .num (-33)] = none ∧ assemble .add [.reg 1, .reg 2] = none := by decide

/-! ### Instructions: vectors V of 95_test_vectors.md -/

theorem test_V1_mova : stepsTo (st 0x10 false true [(2, 0x8000)]) 0x0050
    (fun t => t.readReg 1 == 0x8000#16 && nzpc t true false 0x11) = true := by decide
theorem test_V3_mova_to_itself : stepsTo (st 0x10 true true [(3, 0x1234)]) 0x00D8
    (fun t => t.readReg 3 == 0x1234#16 && nzpc t false false 0x11) = true := by decide
theorem test_V5_inc_wraps : stepsTo (st 0x10 false false [(1, 0xFFFF)]) 0x0248
    (fun t => t.readReg 1 == 0#16 && nzpc t false true 0x11) = true := by decide
theorem test_V69_inc_pc_wraps : stepsTo (st 0xFFFF false false []) 0x0200
    (fun t => t.readReg 0 == 1#16 && nzpc t false false 0) = true := by decide
theorem test_V7_add : stepsTo (st 0x10 false false [(7, 3), (6, 4)]) 0x043E
    (fun t => t.readReg 0 == 7#16 && nzpc t false false 0x11) = true := by decide
theorem test_V11_add_in_place : stepsTo (st 0x10 false false [(4, 0x1234)]) 0x0524
    (fun t => t.readReg 4 == 0x2468#16 && nzpc t false false 0x11) = true := by decide
theorem test_V12_sub : stepsTo (st 0x10 false false [(0, 3), (1, 5)]) 0x0A81
    (fun t => t.readReg 2 == 0xFFFE#16 && nzpc t true false 0x11) = true := by decide
theorem test_V16_sub_overflow : stepsTo (st 0x10 false false [(3, 0x8000)]) 0x0A53
    (fun t => t.readReg 1 == 0x8000#16 && nzpc t true false 0x11) = true := by decide
theorem test_V17_dec_to_zero : stepsTo (st 0x10 false false [(5, 1), (1, 9)]) 0x0C68
    (fun t => t.readReg 1 == 0#16 && nzpc t false true 0x11) = true := by decide
theorem test_V18_dec_below_zero : stepsTo (st 0x10 false false []) 0x0C68
    (fun t => t.readReg 1 == 0xFFFF#16 && nzpc t true false 0x11) = true := by decide
theorem test_V20_and : stepsTo (st 0x10 false false [(2, 0xF0F0), (3, 0xFF00)]) 0x1053
    (fun t => t.readReg 1 == 0xF000#16 && nzpc t true false 0x11) = true := by decide
theorem test_V22_or : stepsTo (st 0x10 false false [(2, 0x00F0), (1, 0x8001)]) 0x1311
    (fun t => t.readReg 4 == 0x80F1#16 && nzpc t true false 0x11) = true := by decide
theorem test_V24_xor : stepsTo (st 0x10 false false [(7, 0x00FF), (3, 0x0F0F)]) 0x143B
    (fun t => t.readReg 0 == 0x0FF0#16 && nzpc t false false 0x11) = true := by decide
theorem test_V26_not : stepsTo (st 0x10 false false [(3, 0x00FF)]) 0x16D8
    (fun t => t.readReg 3 == 0xFF00#16 && nzpc t true false 0x11) = true := by decide
theorem test_V29_movb_keeps : stepsTo (st 0x10 false true [(2, 0x8000)]) 0x1842
    (fun t => t.readReg 1 == 0x8000#16 && nzpc t false true 0x11) = true := by decide
theorem test_V31_shr_keeps : stepsTo (st 0x10 true true [(2, 0x8001)]) 0x1A42
    (fun t => t.readReg 1 == 0x4000#16 && nzpc t true true 0x11) = true := by decide
theorem test_V34_shl_keeps : stepsTo (st 0x10 true true [(4, 0x8001)]) 0x1C84
    (fun t => t.readReg 2 == 2#16 && nzpc t true true 0x11) = true := by decide
theorem test_W3_shl_unused_field : stepsTo (st 0x10 true true [(4, 0x8001)]) 0x1CBC
    (fun t => t.readReg 2 == 2#16 && nzpc t true true 0x11) = true := by decide
theorem test_V39_ldi_zero_keeps : stepsTo (st 0x10 true false [(0, 0x1234)]) 0x9800
    (fun t => t.readReg 0 == 0#16 && nzpc t true false 0x11) = true := by decide
theorem test_V40_ldi_zero_fills : stepsTo (st 0x10 false false []) 0x99C7
    (fun t => t.readReg 7 == 7#16 && nzpc t false false 0x11) = true := by decide
theorem test_V41_adi : stepsTo (st 0x10 false false [(5, 5)]) 0x84AA
    (fun t => t.readReg 2 == 7#16 && nzpc t false false 0x11) = true := by decide
theorem test_V45_adi_wraps : stepsTo (st 0x10 false false [(2, 0xFFF9), (1, 9)]) 0x8457
    (fun t => t.readReg 1 == 0#16 && nzpc t false true 0x11) = true := by decide
theorem test_V46_ld : stepsTo (st 0x10 false false [(4, 0x1C)] [(0x1C, 5)]) 0x2060
    (fun t => t.readReg 1 == 5#16 && t.memRead 0x1C == 5#16 && nzpc t false false 0x11) = true := by decide
theorem test_V48_ld_address_zero : stepsTo (st 0x10 false false [] [(0, 0x8000)]) 0x2098
    (fun t => t.readReg 2 == 0x8000#16 && nzpc t false false 0x11) = true := by decide
theorem test_V49_st : stepsTo (st 0x10 false false [(4, 0x1C), (1, 5)] [(0x1C, 0xFFFF)]) 0x4021
    (fun t => t.memRead 0x1C == 5#16 && t.readReg 4 == 0x1C#16 && nzpc t false false 0x11) = true := by decide
theorem test_V51_st_highest_address : stepsTo (st 0x10 true true [(0, 0xFFFF), (7, 0xABCD)]) 0x4007
    (fun t => t.memRead 0xFFFF == 0xABCD#16 && nzpc t true true 0x11) = true := by decide
theorem test_V52_brz_taken : stepsTo (st 6 true false []) 0xC1E5
    (fun t => nzpc t false true 3) = true := by decide
theorem test_V54_brz_not_taken : stepsTo (st 6 false false [(4, 0x8000)]) 0xC1E5
    (fun t => nzpc t true false 7) = true := by decide
theorem test_V61_brn_taken : stepsTo (st 5 false false [(2, 0xFFFE)]) 0xC212
    (fun t => nzpc t true false 7) = true := by decide
theorem test_V63_brn_on_zero : stepsTo (st 5 false false []) 0xC212
    (fun t => nzpc t false true 6) = true := by decide
theorem test_V66_jmp : stepsTo (st 6 true true [(7, 9)]) 0xE038
    (fun t => nzpc t true true 9) = true := by decide

/-! ### Storing the value an unlisted word reads as, and the end of a run -/

/-- A store of that value removes the entry: equal memories are equal data. -/
theorem test_store_of_zero_unlists :
    ((st 0 false false [] [(7, 1), (3, 2)]).memWrite 7 0).dm = [(3, 2#16)] := by decide

/-- 60_exceptions.md R111: the fault records pc and the word. -/
theorem test_undefined_opcode_fault :
    step ((st 1 false false []).withFetchWord 16 0x0600) = .fault (.undefinedOpcode 1 0x0600) := rfl

/-- X2: a jump outside the program faults at the next step, at the address jumped to. -/
theorem test_X2_fetch_outside_program :
    step { State.reset with pc := 7, im := ⟨0, [0x9807, 0xE000]⟩, endPc := 2 } =
      .fault (.fetchOutsideProgram 7) := rfl

/-- X4: the instruction at END_PC is not executed. -/
theorem test_X4_run_ended :
    step { State.reset with pc := 1, im := ⟨0, [0x9800, 0xC000]⟩, endPc := 1 } = .refused .runEnded := rfl

/-- Log entry 5: with no program loaded, the run from reset has ended at once. -/
theorem test_reset_has_no_program : step State.reset = .refused .runEnded := rfl

/-! ### Witnesses: for each statement with hypotheses a case that meets them -/

/-- A program with a store, an increment, a load and a jump, its first instruction next. -/
def demo : State :=
  { st 0 true false [(0, 0x1C), (1, 5), (7, 9)] with im := ⟨0, [0x4001, 0x02D8, 0x2080, 0xE038]⟩ }

/-- `demo` after its store. -/
def demo1 : State := (demo.memWrite 0x1C 5).nextPc

/-- `demo` after its store and its increment. -/
def demo2 : State := demo1.resultNZ 3 1

/-- `demo` at its jump. -/
def demo3 : State := { demo with pc := 3 }

/-- The jump of `demo`, with END_PC at its target. -/
def demo3End : State := { demo3 with endPc := 9 }

theorem witness_DecodeOfEncodeIsTheInstruction :
    (Instr.ldi 3 7).wellFormed = true ∧ (Instr.brz 4 (-32)).wellFormed = true ∧
    (Instr.brn 4 31).wellFormed = true := by decide

theorem witness_DecodedInstructionsAreWellFormed : decode 0xC1E5#16 = .ok (.brz 4 (-3)) := rfl

theorem witness_UnusedFieldsAreIgnoredAndEncodedAsZero :
    decode 0x1CBC#16 = .ok (.shl 2 4) ∧
    0x1C84#16 &&& (Instr.shl 2 4).opcode.usedMask = 0x1CBC#16 &&& (Instr.shl 2 4).opcode.usedMask :=
  ⟨rfl, rfl⟩

theorem witness_AssemblerAcceptsExactlyWellFormedLines :
    assemble .adi [.reg 2, .reg 5, .num 7] = some (.adi 2 5 7) ∧
    assemble .brn [.reg 2, .num (-32)] = some (.brn 2 (-32)) := by decide

theorem witness_BrzBranchesWhenRegisterIsZero_taken :
    (-32 : Int) ≤ -32 ∧ (-32 : Int) ≤ 31 ∧ (st 6 false false []).readReg 4 = 0x0000#16 := by decide

theorem witness_BrzBranchesWhenRegisterIsZero_not_taken :
    (-32 : Int) ≤ 31 ∧ (31 : Int) ≤ 31 ∧ ¬ (st 6 false false [(4, 0x8000)]).readReg 4 = 0x0000#16 := by decide

theorem witness_BrnBranchesWhenRegisterIsNegative_taken :
    (-32 : Int) ≤ 31 ∧ (31 : Int) ≤ 31 ∧ ((st 6 false false [(4, 0x8000)]).readReg 4).toInt < 0 := by decide

theorem witness_BrnBranchesWhenRegisterIsNegative_not_taken :
    (-32 : Int) ≤ -32 ∧ (-32 : Int) ≤ 31 ∧ ¬ ((st 6 false false []).readReg 4).toInt < 0 := by decide

theorem witness_BranchTargetWrapsModuloWord :
    (-32 : Int) ≤ -32 ∧ (-32 : Int) ≤ 31 ∧ (st 5 false false []).branchTarget (-8) = 0xFFFD#16 := by decide

/-- The store: a register, N, Z and a data word at another address that must be kept. -/
theorem witness_OnlyTheDestinationRegisterChanges :
    exec (.st 0 1) demo = .next demo1 ∧ (Instr.st 0 1).writes ≠ some 1 ∧
    (Instr.st 0 1).writesNZ = false ∧ (∀ ra rb, Instr.st 0 1 = .st ra rb → demo.dataAddress ra ≠ 0x1D) :=
  ⟨rfl, by decide, rfl, by intro ra rb h; cases h; decide⟩

/-- Two states that agree on what INC R3, R3 reads and differ elsewhere. -/
theorem witness_ResultsDependOnlyOnWhatIsRead :
    (∀ r ∈ (Instr.inc 3 3).reads, demo1.readReg r = (demo1.writeReg 6 1).readReg r) ∧
    demo1.pc = (demo1.writeReg 6 1).pc ∧ KeepsMem demo1 (demo1.writeReg 6 1) ∧
    exec (.inc 3 3) demo1 = .next demo2 ∧
    exec (.inc 3 3) (demo1.writeReg 6 1) = .next ((demo1.writeReg 6 1).resultNZ 3 1) ∧
    (Instr.inc 3 3).writes = some 3 ∧ (Instr.inc 3 3).writesNZ = true :=
  ⟨by decide, rfl, fun _ => rfl, rfl, rfl, rfl, rfl⟩

theorem witness_StatusBitsComeFromTheResult_register :
    exec (.inc 3 3) demo1 = .next demo2 ∧ (Instr.inc 3 3).writesNZ = true ∧
    (Instr.inc 3 3).writes = some 3 := ⟨rfl, rfl, rfl⟩

theorem witness_StatusBitsComeFromTheResult_branch :
    exec (.brz 3 0) demo = .next (demo.setNZ 0) ∧ (Instr.brz 3 0).writesNZ = true ∧
    (Instr.brz 3 0).writes = none ∧ (3 : Reg) ∈ (Instr.brz 3 0).reads :=
  ⟨rfl, rfl, rfl, by decide⟩

theorem witness_OnlyBranchesAndJumpsLeaveTheSequence :
    exec (.brz 3 0) demo = .next (demo.setNZ 0) ∧ (demo.setNZ 0).pc ≠ demo.pc + 1#16 ∧
    exec (.jmp 7) demo = .next (demo.setPc 9) ∧ (demo.setPc 9).pc ≠ demo.pc + 1#16 :=
  ⟨rfl, by decide, rfl, by decide⟩

/-- BRN R2, 2 on a negative register. -/
theorem witness_OnlyBranchesAndJumpsLeaveTheSequence_brn :
    exec (.brn 2 2) (st 5 false false [(2, 0xFFFE)]) =
      .next ((st 5 false false [(2, 0xFFFE)]).branchIf true 0xFFFE 2) ∧
    ((st 5 false false [(2, 0xFFFE)]).branchIf true 0xFFFE 2).pc ≠
      (st 5 false false [(2, 0xFFFE)]).pc + 1#16 := ⟨rfl, by decide⟩

theorem witness_StepRunsTheDecodedInstruction :
    demo.pc ≠ demo.endPc ∧ demo.iMemRead demo.pc = some 0x4001#16 ∧ decode 0x4001#16 = .ok (.st 0 1) :=
  ⟨by decide, rfl, rfl⟩

/-- Each of the three outcomes occurs. -/
theorem witness_StepOutcomesAreExactlyThese :
    step demo = .next demo1 ∧ step State.reset = .refused .runEnded ∧
    step (demo.setPc 4) = .fault (.fetchOutsideProgram 4) ∧
    step (demo.withFetchWord 16 0xFFFF) = .fault (.undefinedOpcode 0 0xFFFF) := ⟨rfl, rfl, rfl, rfl⟩

/-- The last word of the program is a word, and the address after it none. -/
theorem witness_FetchReadsExactlyTheProgram :
    demo.im.wf = true ∧ demo.iMemRead 3 = some 0xE038#16 ∧ demo.iMemRead 4 = none := by decide

theorem witness_StepKeepsTheInvariant : demo.Inv ∧ step demo = .next demo1 := ⟨⟨rfl, rfl⟩, rfl⟩

/-- A launch whose program ends at the last address, and whose data holds the last data word. -/
theorem witness_ResetAndLaunchesMeetTheInvariant :
    Launch.wf { Launch.reset with program := ⟨0xFFFE, [0x9805, 0x9840]⟩, dm := [(65535, 1#16)] } = true := by
  decide

theorem witness_EveryStartStateIsALaunch : Program.wf ⟨0xFFFE, [0x9805, 0x9840]⟩ = true := by decide

theorem witness_CanonicalMemoriesReadingTheSameAreEqual :
    Memory.wf [(0, 5#16), (65535, 1#16)] = true ∧
    Memory.wf ((Memory.write [] 65535 1).write 0 5) = true ∧
    ∀ a : Nat, a < 65536 →
      Memory.read [(0, 5#16), (65535, 1#16)] a = ((Memory.write [] 65535 1).write 0 5).read a :=
  ⟨by decide, by decide, fun _ _ => rfl⟩

theorem witness_DataMemoryChangesOnlyByStore :
    step demo = .next demo1 ∧ demo1.memRead 0x1C ≠ demo.memRead 0x1C := ⟨rfl, by decide⟩

/-- A store, an increment in between, and the load. -/
theorem witness_LoadReturnsTheLatestStore :
    demo.nextInstr = some (.st 0 1) ∧ step demo = .next demo1 ∧
    NoStoreTo (demo.dataAddress 0) 1 demo1 ∧ run 1 demo1 = .next demo2 ∧
    demo2.nextInstr = some (.ld 2 0) ∧ demo2.dataAddress 0 = demo.dataAddress 0 := by
  refine ⟨rfl, rfl, ⟨fun ra rb h => ?_, fun _ _ => trivial⟩, rfl, rfl, rfl⟩
  have hi : demo1.nextInstr = some (.inc 3 3) := rfl
  rw [hi] at h
  cases h

theorem witness_RunsNeverChangeTheProgram : run 2 demo = .next demo2 := rfl

theorem witness_StatusBitsNeverInfluenceARun : SameButNZ demo (demo.setNZ 0) ∧ demo.z ≠ (demo.setNZ 0).z :=
  ⟨⟨rfl, rfl, rfl, rfl, rfl⟩, by decide⟩

theorem witness_StatusBitsAreNeverBothSet :
    step demo = .next demo1 ∧ ¬ (demo.n = true ∧ demo.z = true) ∧
    (Instr.inc 3 3).writesNZ = true ∧ exec (.inc 3 3) demo1 = .next demo2 := ⟨rfl, by decide, rfl, rfl⟩

theorem witness_FixedPointsRepeatForEver_brz :
    (demo.withFetchWord 16 0xC018).nextInstr = some (.brz 3 0) ∧
    (demo.withFetchWord 16 0xC018).readReg 3 = 0x0000#16 := ⟨rfl, rfl⟩

theorem witness_FixedPointsRepeatForEver_brn :
    ((st 5 false false [(2, 0xFFFF)]).withFetchWord 16 0xC210).nextInstr = some (.brn 2 0) ∧
    (((st 5 false false [(2, 0xFFFF)]).withFetchWord 16 0xC210).readReg 2).toInt < 0 := ⟨rfl, by decide⟩

theorem witness_FixedPointsRepeatForEver_jmp :
    ((st 6 false false [(3, 6)]).withFetchWord 16 0xE018).nextInstr = some (.jmp 3) ∧
    ((st 6 false false [(3, 6)]).withFetchWord 16 0xE018).readReg 3 =
      ((st 6 false false [(3, 6)]).withFetchWord 16 0xE018).pc := ⟨rfl, rfl⟩

theorem witness_JumpOutsideTheProgramFaultsNextStep_fault :
    demo3.nextInstr = some (.jmp 7) ∧ demo3.readReg 7 ≠ demo3.endPc ∧
    demo3.iMemRead (demo3.readReg 7) = none := ⟨rfl, by decide, rfl⟩

theorem witness_JumpOutsideTheProgramFaultsNextStep_end :
    demo3End.nextInstr = some (.jmp 7) ∧ demo3End.readReg 7 = demo3End.endPc := ⟨rfl, rfl⟩

theorem witness_StoppedRunsStayStopped :
    step (demo.setPc 4) = .fault (.fetchOutsideProgram 4) ∧
    State.reset.pc = State.reset.endPc := ⟨rfl, rfl⟩

theorem witness_PlacedWordsRunAsTheirInstruction :
    (Instr.brn 4 (-32)).wellFormed = true ∧ (Instr.adi 7 0 7).wellFormed = true := by decide

end Sys2Proof.Tests
end

section
/-! PROOFS. What the decoder answers for a word given by its fields, and the immediate operand
(30_encoding.md R55, R57). -/

namespace Sys2Proof

open Sys2Proof.Machine

/-! ### Decoding by the opcode map -/

/-- A word whose seven opcode bits are none of the 19 decodes to `Undefined(op)`, whatever its fields. -/
theorem decode_pack_undefined {op : BitVec 7} (h : ∀ o : Opcode, o.bits ≠ op) (dr sa sb : BitVec 3) :
    decode (pack op dr sa sb) = .error (.undefinedOpcode op) := by
  rw [decode, opcodeField_pack, Opcode.ofBits_eq_none.2 h]

/-- Settles O4. Opcode bits are those of one of the 19 opcodes, and then the map is read at that opcode, or
they are none of them, and then every line of the map is passed over. -/
theorem decodeFollowsTheOpcodeMap : Obligations.DecodeFollowsTheOpcodeMap := by
  intro op dr sa sb
  by_cases hop : ∃ o : Opcode, o.bits = op
  case pos =>
    obtain ⟨o, rfl⟩ := hop
    rw [decode_pack]
    cases o <;> rfl
  case neg =>
    have hne : ∀ o : Opcode, o.bits ≠ op := not_exists.1 hop
    have hall : ∀ o ∈ Opcode.all, op ≠ o.bits := fun o _ => (hne o).symm
    simp only [Opcode.all, Opcode.bits, List.forall_mem_cons] at hall
    simp only [decode_pack_undefined hne, hall, if_false]

/-! ### The immediate operand -/

/-- The immediate of an operand of three bits, as a word: zero filling leaves its value. -/
theorem immediate_eq_ofNat {op : Nat} (h : op < 8) : immediate op = BitVec.ofNat 16 op := by
  apply BitVec.eq_of_toNat_eq
  rw [immediate_toNat h, BitVec.toNat_ofNat]
  omega

/-- ADI carries its operand in `IR[2:0]`. -/
theorem sbField_encode_adi (rd ra : Reg) (op : Nat) :
    sbField (encode (.adi rd ra op)) = BitVec.ofNat 3 op := by
  rw [encode, sbField_pack]

/-- Settles O6: the operand is read at LDI and at ADI by `decode_pack`, and the range is that of three bits. -/
theorem immediateIsZeroFilled : Obligations.ImmediateIsZeroFilled := by
  refine ⟨fun d a o => ?_, sbField_encode_adi 2 5 2⟩
  have ho : o.toNat < 8 := o.isLt
  exact ⟨decode_pack .ldi d a o, decode_pack .adi d a o, immediate_eq_ofNat ho, immediate_toNat ho,
    Nat.le_of_lt_succ ho⟩

end Sys2Proof
end

section
/-! PROOFS. The register-format instructions with a result from the ALU (40_register_alu.md R71 to R80): how
their words are encoded, what each one executes to, and the statements about them. -/

namespace Sys2Proof

open Sys2Proof.Machine

/-! ### The word of an instruction given by its fields (30_encoding.md R60) -/

section Encoding

variable {o : Opcode} (dr sa sb : BitVec 3)

/-- An opcode that uses every bit is encoded from its three fields. -/
theorem encode_instr_of_all_used (h : o.usedMask = 0b1111111111111111#16) :
    encode (o.instr dr sa sb) = pack o.bits dr sa sb := by
  cases o
  case add | sub | and | or | xor | adi | brz | brn => simp [Opcode.instr, encode]
  all_goals exact absurd h (by decide)

/-- An opcode that does not use SB is encoded with 0 there, whatever field it was decoded from. -/
theorem encode_instr_of_sb_unused (h : o.usedMask = 0b1111111111111000#16) :
    encode (o.instr dr sa sb) = pack o.bits dr sa 0#3 := by
  cases o
  case mova | inc | dec | not | ld => simp [Opcode.instr, encode]
  all_goals exact absurd h (by decide)

/-- An opcode that does not use SA is encoded with 0 there, whatever field it was decoded from. -/
theorem encode_instr_of_sa_unused (h : o.usedMask = 0b1111111111000111#16) :
    encode (o.instr dr sa sb) = pack o.bits dr 0#3 sb := by
  cases o
  case movb | shr | shl | ldi => simp [Opcode.instr, encode]
  all_goals exact absurd h (by decide)

end Encoding

/-! ### What each instruction executes to -/

section Execution

variable (rd ra rb : Reg) (s : State)

theorem exec_mova : exec (.mova rd ra) s = .next (s.resultNZ rd (s.readReg ra)) := rfl

theorem exec_inc : exec (.inc rd ra) s = .next (s.resultNZ rd (s.readReg ra + 1#16)) := rfl

theorem exec_add : exec (.add rd ra rb) s = .next (s.resultNZ rd (s.readReg ra + s.readReg rb)) := rfl

theorem exec_sub : exec (.sub rd ra rb) s = .next (s.resultNZ rd (s.readReg ra - s.readReg rb)) := rfl

theorem exec_dec : exec (.dec rd ra) s = .next (s.resultNZ rd (s.readReg ra - 1#16)) := rfl

theorem exec_and : exec (.and rd ra rb) s = .next (s.resultNZ rd (s.readReg ra &&& s.readReg rb)) := rfl

theorem exec_or : exec (.or rd ra rb) s = .next (s.resultNZ rd (s.readReg ra ||| s.readReg rb)) := rfl

theorem exec_xor : exec (.xor rd ra rb) s = .next (s.resultNZ rd (s.readReg ra ^^^ s.readReg rb)) := rfl

theorem exec_not : exec (.not rd ra) s = .next (s.resultNZ rd (~~~ s.readReg ra)) := rfl

theorem exec_movb : exec (.movb rd rb) s = .next (s.resultKeep rd (s.readReg rb)) := rfl

end Execution

section Completion

variable {i : Instr} {s : State} {rd : Reg} {v : Word}

/-- An instruction that ends in `resultNZ` completes, with the register result and the status bits from it. -/
theorem regResultNZ_of_exec (h : exec i s = .next (s.resultNZ rd v)) :
    ∃ t, exec i s = .next t ∧ RegResultNZ s t rd v :=
  ⟨_, h, s.resultNZ_spec v rd⟩

/-- An instruction that ends in `resultKeep` completes, with the register result and N and Z kept. -/
theorem regResultKeep_of_exec (h : exec i s = .next (s.resultKeep rd v)) :
    ∃ t, exec i s = .next t ∧ RegResultKeep s t rd v :=
  ⟨_, h, s.resultKeep_spec v rd⟩

/-- A result that the spec gives in two forms: where the forms are one word, the next state has both. -/
theorem regResultNZ_of_exec_of_eq {w : Word} (h : exec i s = .next (s.resultNZ rd v)) (hvw : v = w) :
    ∃ t, exec i s = .next t ∧ RegResultNZ s t rd v ∧ RegResultNZ s t rd w := by
  subst hvw
  obtain ⟨t, ht, hres⟩ := regResultNZ_of_exec h
  exact ⟨t, ht, hres, hres⟩

end Completion

/-! ### The second forms of a difference and of a complement -/

/-- Two's complement: subtracting is adding the complement and 1 (40_register_alu.md R74). -/
theorem sub_eq_add_not_add_one (v w : Word) : v - w = v + ~~~ w + 1#16 := by
  rw [BitVec.sub_eq_add_neg, BitVec.neg_eq_not_add, BitVec.add_assoc]

/-- Complementing every bit is subtracting from 0xFFFF (40_register_alu.md R79). -/
theorem not_eq_ones_sub (v : Word) : ~~~ v = 0xFFFF#16 - v :=
  (BitVec.allOnes_sub_eq_not v).symm

/-! ### The statements -/

/-- Settles O9: `IR[2:0]` is the unused field, and MOVA ends with status bits. -/
theorem movaCopiesAndSetsStatus : Obligations.MovaCopiesAndSetsStatus :=
  ⟨fun d a x => ⟨decode_pack .mova d a x, encode_instr_of_sb_unused (o := .mova) d a x rfl⟩,
    fun rd ra s => regResultNZ_of_exec (exec_mova rd ra s)⟩

/-- Settles O10: `IR[2:0]` is the unused field, and INC ends with status bits. -/
theorem incAddsOne : Obligations.IncAddsOne :=
  ⟨fun d a x => ⟨decode_pack .inc d a x, encode_instr_of_sb_unused (o := .inc) d a x rfl⟩,
    fun rd ra s => regResultNZ_of_exec (exec_inc rd ra s)⟩

/-- Settles O11: ADD uses every field, and ends with status bits. -/
theorem addAddsModuloWord : Obligations.AddAddsModuloWord :=
  ⟨fun d a b => ⟨decode_pack .add d a b, encode_instr_of_all_used (o := .add) d a b rfl⟩,
    fun rd ra rb s => regResultNZ_of_exec (exec_add rd ra rb s)⟩

/-- Settles O12: SUB uses every field, and the two forms of its result are one word by two's complement. -/
theorem subSubtractsSecondFromFirst : Obligations.SubSubtractsSecondFromFirst :=
  ⟨fun d a b => ⟨decode_pack .sub d a b, encode_instr_of_all_used (o := .sub) d a b rfl⟩,
    fun rd ra rb s => regResultNZ_of_exec_of_eq (exec_sub rd ra rb s) (sub_eq_add_not_add_one ..)⟩

/-- Settles O13: `IR[2:0]` is the unused field, and DEC ends with status bits. -/
theorem decSubtractsOne : Obligations.DecSubtractsOne :=
  ⟨fun d a x => ⟨decode_pack .dec d a x, encode_instr_of_sb_unused (o := .dec) d a x rfl⟩,
    fun rd ra s => regResultNZ_of_exec (exec_dec rd ra s)⟩

/-- Settles O14: AND uses every field, and ends with status bits. -/
theorem andIsBitwise : Obligations.AndIsBitwise :=
  ⟨fun d a b => ⟨decode_pack .and d a b, encode_instr_of_all_used (o := .and) d a b rfl⟩,
    fun rd ra rb s => regResultNZ_of_exec (exec_and rd ra rb s)⟩

/-- Settles O15: OR uses every field, and ends with status bits. -/
theorem orIsBitwise : Obligations.OrIsBitwise :=
  ⟨fun d a b => ⟨decode_pack .or d a b, encode_instr_of_all_used (o := .or) d a b rfl⟩,
    fun rd ra rb s => regResultNZ_of_exec (exec_or rd ra rb s)⟩

/-- Settles O16: XOR uses every field, and ends with status bits. -/
theorem xorIsBitwise : Obligations.XorIsBitwise :=
  ⟨fun d a b => ⟨decode_pack .xor d a b, encode_instr_of_all_used (o := .xor) d a b rfl⟩,
    fun rd ra rb s => regResultNZ_of_exec (exec_xor rd ra rb s)⟩

/-- Settles O17: `IR[2:0]` is the unused field, and the two forms of NOT's result are one word. -/
theorem notComplementsOperandA : Obligations.NotComplementsOperandA :=
  ⟨fun d a x => ⟨decode_pack .not d a x, encode_instr_of_sb_unused (o := .not) d a x rfl⟩,
    fun rd ra s => regResultNZ_of_exec_of_eq (exec_not rd ra s) (not_eq_ones_sub _)⟩

/-- Settles O18: the source is the B field, `IR[5:3]` is the unused one, and MOVB ends with N and Z kept. -/
theorem movbCopiesAndKeepsStatus : Obligations.MovbCopiesAndKeepsStatus :=
  ⟨fun d x b => ⟨decode_pack .movb d x b, encode_instr_of_sa_unused (o := .movb) d x b rfl⟩,
    fun rd rb s => regResultKeep_of_exec (exec_movb rd rb s)⟩

end Sys2Proof
end

section
/-! PROOFS. LDI and ADI (41_immediate.md R90, R91): what each one executes to, and the statements about them. -/

namespace Sys2Proof

open Sys2Proof.Machine

/-! ### What each instruction executes to -/

section Execution

variable (rd ra : Reg) (op : Nat) (s : State)

theorem exec_ldi : exec (.ldi rd op) s = .next (s.resultKeep rd (immediate op)) := rfl

theorem exec_adi : exec (.adi rd ra op) s = .next (s.resultNZ rd (s.readReg ra + immediate op)) := rfl

end Execution

/-- Zero filling an operand field of three bits leaves its value. -/
theorem immediate_field_eq_ofNat (o : BitVec 3) : immediate o.toNat = BitVec.ofNat 16 o.toNat :=
  immediate_eq_ofNat o.isLt

/-! ### The statements -/

/-- Settles O21: `IR[5:3]` is the unused field, and LDI ends with the zero-filled operand and N and Z kept. -/
theorem ldiLoadsZeroFilledOperand : Obligations.LdiLoadsZeroFilledOperand := by
  refine ⟨fun d x o => ⟨decode_pack .ldi d x o, encode_instr_of_sa_unused (o := .ldi) d x o rfl⟩,
    fun rd o s => ?_⟩
  rw [← immediate_field_eq_ofNat]
  exact regResultKeep_of_exec (exec_ldi rd o.toNat s)

/-- Settles O22: ADI uses every field, and ends with the sum of R[SA] and the zero-filled operand and with
status bits. -/
theorem adiAddsZeroFilledOperand : Obligations.AdiAddsZeroFilledOperand := by
  refine ⟨fun d a o => ⟨decode_pack .adi d a o, encode_instr_of_all_used (o := .adi) d a o rfl⟩,
    fun rd ra o s => ?_⟩
  rw [← immediate_field_eq_ofNat]
  exact regResultNZ_of_exec (exec_adi rd ra o.toNat s)

end Sys2Proof
end

section
/-! PROOFS. LD and ST (42_load_store.md R95, R96): what each one executes to, what the end of a store does, and
the statements about them. -/

namespace Sys2Proof

open Sys2Proof.Machine

/-! ### The word of a store -/

/-- ST is encoded with 0 in `IR[8:6]`, the one field it does not use (30_encoding.md R60). -/
theorem encode_st_of_fields (a b : BitVec 3) :
    encode (.st (regOfField a) (regOfField b)) = pack Opcode.st.bits 0#3 a b := by
  rw [encode, fieldOfReg_regOfField, fieldOfReg_regOfField]

/-! ### What each instruction executes to -/

section Execution

variable (rd ra rb : Reg) (s : State)

theorem exec_ld : exec (.ld rd ra) s = .next (s.resultKeep rd (s.memRead (s.readReg ra))) := rfl

theorem exec_st : exec (.st ra rb) s = .next (s.memWrite (s.readReg ra) (s.readReg rb)).nextPc := rfl

end Execution

/-! ### The end of a store -/

/-- What is said of one data word and of all the others holds of every state with the same data memory. -/
theorem writesOnlyMem_of_dm_eq {s t u : State} {a v : Word} (h : WritesOnlyMem s t a v) (hdm : u.dm = t.dm) :
    WritesOnlyMem s u a v := by
  obtain ⟨hself, hother⟩ := h
  refine ⟨?_, fun b hb => ?_⟩
  · rw [State.memRead_congr hdm, hself]
  · rw [State.memRead_congr hdm, hother b hb]

/-- What the end of a store does: one data word, `pc + 1`, and nothing else. -/
theorem memWrite_nextPc_spec (s : State) (a v : Word) :
    WritesOnlyMem s (s.memWrite a v).nextPc a v ∧ (s.memWrite a v).nextPc.pc = s.pc + 1 ∧
      KeepsRegs s (s.memWrite a v).nextPc ∧ KeepsNZ s (s.memWrite a v).nextPc ∧
      KeepsLaunch s (s.memWrite a v).nextPc := by
  have hmem : WritesOnlyMem s (s.memWrite a v).nextPc a v :=
    writesOnlyMem_of_dm_eq (s.memWrite_spec v a) (State.nextPc_dm _)
  have hregs : (s.memWrite a v).nextPc.regs = s.regs := by simp
  exact ⟨hmem, by simp, State.readReg_congr hregs, by simp [KeepsNZ], by simp [KeepsLaunch]⟩

/-! ### The statements -/

/-- Settles O23: `IR[2:0]` is the unused field, and LD ends with the addressed word and N and Z kept. The address
is read before R[DR] is written, so DR may be SA. -/
theorem ldLoadsTheAddressedWord : Obligations.LdLoadsTheAddressedWord :=
  ⟨fun d a x => ⟨decode_pack .ld d a x, encode_instr_of_sb_unused (o := .ld) d a x rfl⟩,
    fun rd ra s => regResultKeep_of_exec (exec_ld rd ra s)⟩

/-- Settles O24: `IR[8:6]` is the unused field, and ST ends in a store at the address that R[SA] holds. -/
theorem stStoresAtTheAddressedWord : Obligations.StStoresAtTheAddressedWord :=
  ⟨fun x a b => ⟨decode_pack .st x a b, encode_st_of_fields a b⟩,
    fun ra rb s => ⟨_, exec_st ra rb s, memWrite_nextPc_spec s (s.readReg ra) (s.readReg rb)⟩⟩

end Sys2Proof
end

section
/-! PROOFS. Decoder and encoder agree (30_encoding.md sections 1 to 5): the round trip, the ranges of what is
decoded, and the unused fields. -/

namespace Sys2Proof

open Sys2Proof.Machine

/-! ### The fields of an encoded word -/

/-- An OP in range fits its three bits. -/
theorem toNat_ofNat_of_opInRange {op : Nat} (h : opInRange op = true) : (BitVec.ofNat 3 op).toNat = op := by
  simp only [opInRange, decide_eq_true_eq] at h
  rw [BitVec.toNat_ofNat]
  omega

/-- The word of a well-formed instruction is packed, under its opcode, from fields that its opcode reads as
that instruction. -/
theorem encode_eq_pack {i : Instr} (h : i.wellFormed = true) :
    ∃ dr sa sb, encode i = pack i.opcode.bits dr sa sb ∧ i.opcode.instr dr sa sb = i := by
  cases i with
  | mova | inc | add | sub | dec | and | or | xor | not | movb | shr | shl | ld | st | jmp =>
    exact ⟨_, _, _, rfl, by simp [Instr.opcode, Opcode.instr]⟩
  | ldi | adi =>
    exact ⟨_, _, _, rfl, by simp [Instr.opcode, Opcode.instr, toNat_ofNat_of_opInRange h]⟩
  | brz | brn =>
    exact ⟨_, _, _, rfl, by simp [Instr.opcode, Opcode.instr, adOfFields_adLeft_adRight h]⟩

/-- Decoding inverts encoding on well-formed instructions. -/
theorem decode_encode {i : Instr} (h : i.wellFormed = true) : decode (encode i) = .ok i := by
  obtain ⟨dr, sa, sb, hpack, hinstr⟩ := encode_eq_pack h
  rw [hpack, decode_pack, hinstr]

/-- Settles O1: the word is packed from fields that the opcode reads back. -/
theorem decodeOfEncodeIsTheInstruction : Obligations.DecodeOfEncodeIsTheInstruction :=
  fun _ h => decode_encode h

/-! ### What is decoded is well-formed -/

/-- Three bits hold an OP in range. -/
theorem opInRange_toNat (f : BitVec 3) : opInRange f.toNat = true :=
  decide_eq_true f.isLt

/-- Whatever the fields of a word hold, the instruction read from them is well-formed. -/
theorem wellFormed_instr (o : Opcode) (dr sa sb : BitVec 3) : (o.instr dr sa sb).wellFormed = true := by
  cases o with
  | ldi | adi => exact opInRange_toNat sb
  | brz | brn => exact adInRange_adOfFields dr sb
  | _ => rfl

/-- Settles O2: an instruction decoded from a word is read from that word's fields. -/
theorem decodedInstructionsAreWellFormed : Obligations.DecodedInstructionsAreWellFormed := by
  intro ir i h
  obtain ⟨o, -, rfl⟩ := decode_eq_ok.1 h
  exact wellFormed_instr o _ _ _

/-! ### Unused fields -/

/-- The instruction of an opcode has that opcode. -/
theorem opcode_instr (o : Opcode) (dr sa sb : BitVec 3) : (o.instr dr sa sb).opcode = o := by
  cases o <;> rfl

/-- Masking a word masks its fields. -/
theorem pack_and_pack (op op' : BitVec 7) (dr dr' sa sa' sb sb' : BitVec 3) :
    pack op dr sa sb &&& pack op' dr' sa' sb' = pack (op &&& op') (dr &&& dr') (sa &&& sa') (sb &&& sb') := by
  simp only [pack, ← BitVec.and_append]
  rfl

/-- Every opcode uses the seven opcode bits. -/
theorem opcodeField_usedMask (o : Opcode) : opcodeField o.usedMask = BitVec.allOnes 7 := by
  cases o <;> rfl

/-- A field whose three bits are all used is kept. -/
theorem and_seven (f : BitVec 3) : f &&& 7#3 = f := BitVec.and_allOnes

/-- The encoder keeps the bits that the opcode uses and writes 0 into the others. -/
theorem encode_instr (o : Opcode) (dr sa sb : BitVec 3) :
    encode (o.instr dr sa sb) = pack o.bits dr sa sb &&& o.usedMask := by
  have hmask : o.usedMask =
      pack (BitVec.allOnes 7) (drField o.usedMask) (saField o.usedMask) (sbField o.usedMask) := by
    rw [← opcodeField_usedMask o, pack_fields]
  rw [hmask, pack_and_pack, BitVec.and_allOnes]
  cases o <;> simp [Opcode.instr, encode, Opcode.usedMask, drField, saField, sbField, and_seven]

/-- An instruction is encoded as any word that decodes to it, with the unused bits 0. -/
theorem encode_of_decode {ir : Word} {i : Instr} (h : decode ir = .ok i) :
    encode i = ir &&& i.opcode.usedMask := by
  obtain ⟨o, ho, rfl⟩ := decode_eq_ok.1 h
  rw [encode_instr, opcode_instr, ← ho, pack_fields]

/-- Masking a word to the bits an opcode uses leaves its opcode field. -/
theorem opcodeField_and_usedMask (ir : Word) (o : Opcode) :
    opcodeField (ir &&& o.usedMask) = opcodeField ir := by
  have hmask := opcodeField_usedMask o
  unfold opcodeField at *
  rw [BitVec.extractLsb'_and, hmask, BitVec.and_allOnes]

/-- A word with the opcode of a word that decodes decodes too, under the same opcode. -/
theorem decode_of_opcodeField_eq {ir ir' : Word} {i : Instr} (h : decode ir = .ok i)
    (hop : opcodeField ir' = opcodeField ir) : ∃ j, decode ir' = .ok j ∧ j.opcode = i.opcode := by
  obtain ⟨o, ho, rfl⟩ := decode_eq_ok.1 h
  exact ⟨_, decode_eq_ok.2 ⟨o, hop.trans ho, rfl⟩, by rw [opcode_instr, opcode_instr]⟩

/-- Settles O3. A word that agrees on the used bits has the same opcode, so it decodes to some instruction; both
instructions are encoded as the one masked word, and encoding loses nothing. -/
theorem unusedFieldsAreIgnoredAndEncodedAsZero : Obligations.UnusedFieldsAreIgnoredAndEncodedAsZero := by
  refine fun ir i h => ⟨fun ir' hmask => ?_, encode_of_decode h⟩
  have hop : opcodeField ir' = opcodeField ir := by
    rw [← opcodeField_and_usedMask ir' i.opcode, hmask, opcodeField_and_usedMask]
  obtain ⟨j, hj, hji⟩ := decode_of_opcodeField_eq h hop
  have henc : encode j = encode i := by rw [encode_of_decode hj, encode_of_decode h, hji, hmask]
  calc decode ir' = .ok j := hj
    _ = decode (encode j) := (decode_encode (decodedInstructionsAreWellFormed ir' j hj)).symm
    _ = decode (encode i) := by rw [henc]
    _ = .ok i := decode_encode (decodedInstructionsAreWellFormed ir i h)

/-! ### Words written out -/

/-- Settles O5: each word is its opcode and its three fields, from the left. -/
theorem sourceEncodingsDecode : Obligations.SourceEncodingsDecode :=
  ⟨decode_pack .add 0 7 6, decode_pack .dec 1 5 0, decode_pack .shl 2 0 4, decode_pack .not 3 3 0,
    decode_pack .or 4 2 1, decode_pack .xor 0 7 3, decode_pack .ld 1 4 0, decode_pack .adi 2 5 2,
    decode_pack .shl 3 0 6, decode_pack .st 0 4 1, decode_pack .brn 0 2 2, decode_pack .jmp 0 7 0,
    decode_pack_undefined (op := 0x03#7) (by intro o; cases o <;> decide) 0 0 0⟩

/-! ### The branch offset -/

/-- The offset word is the sign extension of the six bits of AD. -/
theorem branchOffset_adOfFields (l r : BitVec 3) :
    branchOffset (adOfFields l r) = (adField l r).signExtend 16 := by
  rw [branchOffset, sext16, adOfFields, BitVec.ofInt_toInt]

/-- AD is a number of six bits with its sign. -/
theorem adOfFields_bounds (l r : BitVec 3) : -32 ≤ adOfFields l r ∧ adOfFields l r ≤ 31 := by
  simpa [adInRange] using adInRange_adOfFields l r

/-- The offset word is `IR[8:6]`, `IR[2:0]`, with `IR[8]` copied to the left. -/
theorem branchOffset_getLsbD (l r : BitVec 3) (k : Nat) :
    (branchOffset (adOfFields l r)).getLsbD k =
      if k < 3 then r.getLsbD k
      else if k < 6 then l.getLsbD (k - 3)
      else if k < 16 then l.getLsbD 2 else false := by
  rw [branchOffset_adOfFields, BitVec.getLsbD_signExtend, BitVec.msb_eq_getLsbD_last, adField_getLsbD,
    adField_getLsbD]
  rcases Nat.lt_or_ge k 6 with h | h
  · simp [h, show k < 16 by omega]
  · simp [show ¬k < 6 by omega, show ¬k < 3 by omega]

/-- Settles O7: the words decode by `decode_pack`, and the offset is the sign extension of the six bits. -/
theorem branchOffsetIsSignExtended : Obligations.BranchOffsetIsSignExtended := by
  refine ⟨fun l a r => ?_, rfl, rfl, rfl, rfl⟩
  obtain ⟨hlo, hhi⟩ := adOfFields_bounds l r
  exact ⟨decode_pack .brz l a r, decode_pack .brn l a r, branchOffset_getLsbD l r,
    branchOffset_toInt hlo hhi, hlo, hhi⟩

end Sys2Proof
end

section
/-! PROOFS. The assembler form (30_encoding.md R63): which operands each reader accepts, and that a line is read
back as the instruction it was written from. -/

namespace Sys2Proof.Machine

/-! ### Which operands each reader accepts -/

variable {x y w : AsmOperand} {i : Instr}

@[simp] theorem readAsmReg_eq_some {r : Reg} : readAsmReg x = some r ↔ x = asmReg r := by
  cases x with
  | reg n =>
    have hlt : n = r.val → n < 8 := fun h => h ▸ r.isLt
    simpa [readAsmReg, asmReg, Fin.ext_iff] using hlt
  | num z => simp [readAsmReg, asmReg]

@[simp] theorem readAsmOp_eq_some {k : Nat} : readAsmOp x = some k ↔ x = .num k := by
  cases x with
  | reg n => simp [readAsmOp]
  | num z => cases z <;> simp [readAsmOp]

@[simp] theorem readAsmAd_eq_some {k : Int} : readAsmAd x = some k ↔ x = .num k := by
  cases x <;> simp [readAsmAd]

/-- Two register operands give the instruction of the two registers they name. -/
@[simp] theorem readTwo_eq_some {f : Reg → Reg → Instr} :
    readTwo f x y = some i ↔ ∃ r q, x = asmReg r ∧ y = asmReg q ∧ f r q = i := by
  simp [readTwo, Option.bind_eq_some_iff]

/-- Three register operands give the instruction of the three registers they name. -/
@[simp] theorem readThree_eq_some {f : Reg → Reg → Reg → Instr} :
    readThree f x y w = some i ↔ ∃ r q p, x = asmReg r ∧ y = asmReg q ∧ w = asmReg p ∧ f r q p = i := by
  simp [readThree, Option.bind_eq_some_iff]

/-! ### Reading a line back -/

/-- The operands of an instruction are read back under its opcode as that instruction. -/
theorem readAsm_asmOperands (i : Instr) : readAsm i.opcode (asmOperands i) = some i := by
  cases i <;> simp [readAsm, Instr.opcode, asmOperands, Option.bind_eq_some_iff]

/-- What is read as an instruction is its own opcode with its own operands. -/
theorem eq_of_readAsm {o : Opcode} {ops : List AsmOperand} (h : readAsm o ops = some i) :
    i.opcode = o ∧ asmOperands i = ops := by
  unfold readAsm at h
  split at h
  case h_1 | h_2 | h_5 | h_9 | h_10 | h_11 | h_12 | h_15 | h_16 =>
    obtain ⟨r, q, rfl, rfl, rfl⟩ := readTwo_eq_some.1 h
    exact ⟨rfl, rfl⟩
  case h_3 | h_4 | h_6 | h_7 | h_8 =>
    obtain ⟨r, q, p, rfl, rfl, rfl, rfl⟩ := readThree_eq_some.1 h
    exact ⟨rfl, rfl⟩
  case h_13 | h_17 | h_18 =>
    simp only [Option.bind_eq_some_iff, Option.map_eq_some_iff, readAsmReg_eq_some, readAsmOp_eq_some,
      readAsmAd_eq_some] at h
    obtain ⟨r, rfl, k, rfl, rfl⟩ := h
    exact ⟨rfl, rfl⟩
  case h_14 =>
    simp only [Option.bind_eq_some_iff, Option.map_eq_some_iff, readAsmReg_eq_some, readAsmOp_eq_some] at h
    obtain ⟨r, rfl, q, rfl, k, rfl, rfl⟩ := h
    exact ⟨rfl, rfl⟩
  case h_19 =>
    simp only [Option.map_eq_some_iff, readAsmReg_eq_some] at h
    obtain ⟨r, rfl, rfl⟩ := h
    exact ⟨rfl, rfl⟩
  case h_20 => cases h

/-- An assembled instruction is what the operands are read as, with its ranges checked. -/
theorem assemble_eq_some {o : Opcode} {ops : List AsmOperand} :
    assemble o ops = some i ↔ readAsm o ops = some i ∧ i.wellFormed = true := by
  simp [assemble, Option.filter_eq_some_iff]

/-- Settles O8: reading and writing the operands are inverse, and the assembler adds the check of the ranges. -/
theorem assemblerAcceptsExactlyWellFormedLines : Obligations.AssemblerAcceptsExactlyWellFormedLines := by
  refine ⟨fun i => ?_, fun o ops i h => ?_⟩
  · rw [assemble, readAsm_asmOperands, Option.filter_some]
  · obtain ⟨hread, hwf⟩ := assemble_eq_some.1 h
    obtain ⟨hop, hops⟩ := eq_of_readAsm hread
    exact ⟨hop, hops, hwf⟩

end Sys2Proof.Machine
end

section
/-! PROOFS. What an instruction does to each part of the state, as the columns of the opcode table give it, and the
statements about every instruction (10_state.md sections 1 to 3). -/

namespace Sys2Proof.Machine

/-! ### The state after an instruction, part by part -/

/-- The value an instruction works on: the result it writes to its register, the word a branch tests, the word
ST stores, the target of JMP. -/
def State.valueOf (s : State) : Instr → Word
  | .mova _ ra => s.readReg ra
  | .inc _ ra => s.readReg ra + 1#16
  | .add _ ra rb => s.readReg ra + s.readReg rb
  | .sub _ ra rb => s.readReg ra - s.readReg rb
  | .dec _ ra => s.readReg ra - 1#16
  | .and _ ra rb => s.readReg ra &&& s.readReg rb
  | .or _ ra rb => s.readReg ra ||| s.readReg rb
  | .xor _ ra rb => s.readReg ra ^^^ s.readReg rb
  | .not _ ra => ~~~ s.readReg ra
  | .movb _ rb => s.readReg rb
  | .shr _ rb => shiftRight (s.readReg rb)
  | .shl _ rb => shiftLeft (s.readReg rb)
  | .ldi _ op => immediate op
  | .adi _ ra op => s.readReg ra + immediate op
  | .ld _ ra => s.memRead (s.readReg ra)
  | .st _ rb => s.readReg rb
  | .brz ra _ => s.readReg ra
  | .brn ra _ => s.readReg ra
  | .jmp ra => s.readReg ra

/-- The registers after an instruction: the one it writes holds its value. -/
def State.regsAfter (s : State) (i : Instr) : Vector Word 8 :=
  match i.writes with
  | some rd => (s.writeReg rd (s.valueOf i)).regs
  | none => s.regs

/-- The program counter after an instruction: `pc + 1` but for a taken branch and a jump. -/
def State.pcAfter (s : State) : Instr → Word
  | .brz ra ad => if zeroFlag (s.readReg ra) then s.branchTarget ad else s.pc + 1#16
  | .brn ra ad => if negFlag (s.readReg ra) then s.branchTarget ad else s.pc + 1#16
  | .jmp ra => s.readReg ra
  | _ => s.pc + 1#16

/-- The data memory after an instruction: as before but for ST. -/
def State.dmAfter (s : State) : Instr → Memory
  | .st ra rb => s.dm.write (s.readReg ra).toNat (s.readReg rb)
  | _ => s.dm

/-- The state after an instruction. -/
def State.after (s : State) (i : Instr) : State where
  regs := s.regsAfter i
  pc := s.pcAfter i
  n := if i.writesNZ then negFlag (s.valueOf i) else s.n
  z := if i.writesNZ then zeroFlag (s.valueOf i) else s.z
  dm := s.dmAfter i
  im := s.im
  endPc := s.endPc

/-- Every instruction completes, in the state that its row of the table gives. -/
theorem exec_eq_after (i : Instr) (s : State) : exec i s = .next (s.after i) := by
  cases i <;> rfl

/-- Settles O29: the next state is the one that the instruction's row gives. -/
theorem everyInstructionCompletes : Obligations.EveryInstructionCompletes :=
  fun i s => ⟨_, exec_eq_after i s⟩

/-- The next state that `exec` answers is the state after the instruction. -/
theorem eq_after_of_exec {i : Instr} {s t : State} (h : exec i s = .next t) : t = s.after i := by
  rw [exec_eq_after] at h
  exact (Host.Outcome.next.inj h).symm

/-! ### Reading the state after an instruction -/

section Reading

variable {i : Instr} (s : State)

@[simp] theorem State.after_pc : (s.after i).pc = s.pcAfter i := rfl
@[simp] theorem State.after_dm : (s.after i).dm = s.dmAfter i := rfl
@[simp] theorem State.after_im : (s.after i).im = s.im := rfl
@[simp] theorem State.after_endPc : (s.after i).endPc = s.endPc := rfl

theorem after_keepsLaunch (i : Instr) : KeepsLaunch s (s.after i) := ⟨rfl, rfl⟩

theorem after_regs_of_writes_none (h : i.writes = none) : (s.after i).regs = s.regs := by
  simp [State.after, State.regsAfter, h]

theorem after_regs_of_writes {rd : Reg} (h : i.writes = some rd) :
    (s.after i).regs = (s.writeReg rd (s.valueOf i)).regs := by
  simp [State.after, State.regsAfter, h]

/-- The register an instruction writes holds its value afterwards. -/
theorem readReg_after_of_writes {r : Reg} (h : i.writes = some r) : (s.after i).readReg r = s.valueOf i := by
  rw [State.readReg_congr (after_regs_of_writes s h), State.readReg_writeReg_self]

/-- A register an instruction does not write is as before. -/
theorem readReg_after_of_not_writes {r : Reg} (h : i.writes ≠ some r) :
    (s.after i).readReg r = s.readReg r := by
  cases hw : i.writes with
  | none => exact State.readReg_congr (after_regs_of_writes_none s hw) r
  | some rd =>
    have hr : r ≠ rd := fun e => h (e ▸ hw)
    rw [State.readReg_congr (after_regs_of_writes s hw), State.readReg_writeReg_ne _ _ hr]

/-- An instruction whose status cell is empty keeps N and Z. -/
theorem after_keepsNZ (h : i.writesNZ = false) : KeepsNZ s (s.after i) := by
  simp [KeepsNZ, State.after, h]

theorem after_n_of_writesNZ (h : i.writesNZ = true) : (s.after i).n = negFlag (s.valueOf i) := by
  simp [State.after, h]

theorem after_z_of_writesNZ (h : i.writesNZ = true) : (s.after i).z = zeroFlag (s.valueOf i) := by
  simp [State.after, h]

/-- An instruction whose status cell is N, Z describes its value. -/
theorem after_setsNZ (h : i.writesNZ = true) : SetsNZ (s.after i) (s.valueOf i) :=
  setsNZ_of_flags (after_n_of_writesNZ s h) (after_z_of_writesNZ s h)

/-- The data memory is as before unless the instruction is ST. -/
theorem dmAfter_of_not_st (h : ∀ ra rb, i ≠ .st ra rb) : s.dmAfter i = s.dm := by
  cases i with
  | st ra rb => exact absurd rfl (h ra rb)
  | _ => rfl

/-- ST leaves the content of its data register at the address that its address register holds. -/
theorem memRead_after_st (ra rb : Reg) : (s.after (.st ra rb)).memRead (s.readReg ra) = s.readReg rb :=
  Memory.read_write_self s.dm _ _

/-- A data word is as before unless the instruction is ST to its address. -/
theorem memRead_after_of_not_stored {a : Word} (h : ∀ ra rb, i = .st ra rb → s.dataAddress ra ≠ a) :
    (s.after i).memRead a = s.memRead a := by
  cases i with
  | st ra rb => exact State.memRead_memWrite_ne s (s.readReg rb) (h ra rb rfl).symm
  | _ => rfl

end Reading

/-! ### What the state after an instruction depends on -/

section Dependence

variable {i : Instr} {s s' : State}

/-- The value depends on the registers read and the data memory only. -/
theorem valueOf_congr (hregs : ∀ r ∈ i.reads, s.readReg r = s'.readReg r) (hmem : KeepsMem s s') :
    s.valueOf i = s'.valueOf i := by
  cases i with
  | ld rd ra =>
    have hra : s.readReg ra = s'.readReg ra := hregs ra (by simp [Instr.reads])
    simp only [State.valueOf, hra, hmem _]
  | _ => simp_all [State.valueOf, Instr.reads]

/-- The program counter depends on itself and the registers read only. -/
theorem pcAfter_congr (hregs : ∀ r ∈ i.reads, s.readReg r = s'.readReg r) (hpc : s.pc = s'.pc) :
    s.pcAfter i = s'.pcAfter i := by
  cases i with
  | brz ra | brn ra | jmp ra =>
    have hra : s.readReg ra = s'.readReg ra := hregs ra (by simp [Instr.reads])
    simp [State.pcAfter, State.branchTarget, hra, hpc]
  | _ => simp [State.pcAfter, hpc]

/-- The data words depend on themselves and the registers read only. -/
theorem after_keepsMem_congr (hregs : ∀ r ∈ i.reads, s.readReg r = s'.readReg r) (hmem : KeepsMem s s') :
    KeepsMem (s.after i) (s'.after i) := by
  cases i with
  | st ra rb =>
    have hra : s.readReg ra = s'.readReg ra := hregs ra (by simp [Instr.reads])
    have hrb : s.readReg rb = s'.readReg rb := hregs rb (by simp [Instr.reads])
    intro a
    by_cases ha : a = s.readReg ra
    · rw [ha, memRead_after_st, hra, memRead_after_st, hrb]
    · have hs : ∀ qa qb, Instr.st ra rb = .st qa qb → s.dataAddress qa ≠ a := by
        rintro _ _ ⟨⟩ rfl
        exact ha rfl
      have hs' : ∀ qa qb, Instr.st ra rb = .st qa qb → s'.dataAddress qa ≠ a := by
        rintro _ _ ⟨⟩ rfl
        exact ha hra.symm
      rw [memRead_after_of_not_stored s hs, memRead_after_of_not_stored s' hs', hmem]
  | _ => exact hmem

end Dependence

/-! ### The statements -/

/-- Settles O30: the parts of the state after the instruction, one by one. -/
theorem onlyTheDestinationRegisterChanges : Obligations.OnlyTheDestinationRegisterChanges := by
  intro i s t h
  obtain rfl := eq_after_of_exec h
  exact ⟨fun _ => readReg_after_of_not_writes s, after_keepsNZ s, fun _ => memRead_after_of_not_stored s,
    after_keepsLaunch s i⟩

/-- Settles O31: `pc`, the value, the data words and the status bits are functions of what is read. -/
theorem resultsDependOnlyOnWhatIsRead : Obligations.ResultsDependOnlyOnWhatIsRead := by
  intro i s s' t t' hregs hpc hmem ht ht'
  obtain rfl := eq_after_of_exec ht
  obtain rfl := eq_after_of_exec ht'
  have hvalue := valueOf_congr hregs hmem
  refine ⟨pcAfter_congr hregs hpc, fun r hr => ?_, after_keepsMem_congr hregs hmem, fun hnz => ⟨?_, ?_⟩⟩
  · rw [readReg_after_of_writes s hr, readReg_after_of_writes s' hr, hvalue]
  · rw [after_n_of_writesNZ s hnz, after_n_of_writesNZ s' hnz, hvalue]
  · rw [after_z_of_writesNZ s hnz, after_z_of_writesNZ s' hnz, hvalue]

/-- The value of an instruction that writes N and Z but no register, so of a branch, is the register it tests. -/
theorem valueOf_of_tests {i : Instr} {r : Reg} (s : State) (hnz : i.writesNZ = true) (hw : i.writes = none)
    (hr : r ∈ i.reads) : s.valueOf i = s.readReg r := by
  cases i with
  | brz ra | brn ra =>
    rw [List.mem_singleton.1 hr]
    rfl
  | st | jmp => cases hnz
  | _ => cases hw

/-- Settles O32: the status bits describe the instruction's value, which is written or tested. -/
theorem statusBitsComeFromTheResult : Obligations.StatusBitsComeFromTheResult := by
  intro i s t h hnz
  obtain rfl := eq_after_of_exec h
  have hset := after_setsNZ s hnz
  refine ⟨fun r hr => ?_, fun hw r hr => ?_⟩
  · rwa [readReg_after_of_writes s hr]
  · rwa [← valueOf_of_tests s hnz hw hr]

/-- Settles O33: `pcAfter` is `pc + 1` in every other case. -/
theorem onlyBranchesAndJumpsLeaveTheSequence : Obligations.OnlyBranchesAndJumpsLeaveTheSequence := by
  intro i s t h hpc
  obtain rfl := eq_after_of_exec h
  cases i with
  | jmp ra => exact .inl ⟨ra, rfl⟩
  | brz ra ad =>
    have htaken : zeroFlag (s.readReg ra) = true := by
      by_contra hf
      exact hpc (if_neg hf)
    exact .inr (.inl ⟨ra, ad, rfl, beq_iff_eq.1 htaken⟩)
  | brn ra ad =>
    have htaken : negFlag (s.readReg ra) = true := by
      by_contra hf
      exact hpc (if_neg hf)
    rw [negFlag_eq_toInt, decide_eq_true_eq] at htaken
    exact .inr (.inr ⟨ra, ad, rfl, htaken⟩)
  | _ => exact absurd rfl hpc

/-! ### States that differ at most in N and Z -/

section SameButNZ

variable {s t : State}

theorem SameButNZ.readReg (h : SameButNZ s t) (r : Reg) : s.readReg r = t.readReg r := by
  obtain ⟨hregs, -⟩ := h
  exact State.readReg_congr hregs r

theorem SameButNZ.keepsMem (h : SameButNZ s t) : KeepsMem s t := by
  obtain ⟨-, -, hdm, -⟩ := h
  exact State.memRead_congr hdm.symm

theorem SameButNZ.valueOf (h : SameButNZ s t) (i : Instr) : s.valueOf i = t.valueOf i :=
  valueOf_congr (fun r _ => h.readReg r) h.keepsMem

/-- No instruction makes states that differ at most in N and Z differ in anything else. -/
theorem SameButNZ.after (h : SameButNZ s t) (i : Instr) : SameButNZ (s.after i) (t.after i) := by
  obtain ⟨hregs, hpc, hdm, him, hend⟩ := id h
  refine ⟨?_, pcAfter_congr (fun r _ => h.readReg r) hpc, ?_, him, hend⟩
  · cases hw : i.writes with
    | none => rw [after_regs_of_writes_none s hw, after_regs_of_writes_none t hw, hregs]
    | some rd =>
      rw [after_regs_of_writes s hw, after_regs_of_writes t hw, h.valueOf i]
      simp [State.writeReg, hregs]
  · cases i with
    | st ra rb => simp [State.dmAfter, hdm, h.readReg]
    | _ => exact hdm

end SameButNZ

end Sys2Proof.Machine
end

section
/-! PROOFS. The shifts (40_register_alu.md R81, R82): the two forms of each result, and the statements. -/

namespace Sys2Proof.Machine

/-! ### What each instruction executes to -/

section Execution

variable (rd rb : Reg) (s : State)

theorem exec_shr : exec (.shr rd rb) s = .next (s.resultKeep rd (shiftRight (s.readReg rb))) := rfl

theorem exec_shl : exec (.shl rd rb) s = .next (s.resultKeep rd (shiftLeft (s.readReg rb))) := rfl

end Execution

/-- A result that the spec gives in two forms, with N and Z kept: each form is the word of the result. -/
theorem regResultKeep_of_exec_of_eq {i : Instr} {s : State} {rd : Reg} {v w w' : Word}
    (h : exec i s = .next (s.resultKeep rd v)) (hw : v = w) (hw' : v = w') :
    ∃ t, exec i s = .next t ∧ RegResultKeep s t rd w ∧ RegResultKeep s t rd w' := by
  obtain ⟨t, ht, hres⟩ := regResultKeep_of_exec h
  exact ⟨t, ht, hw ▸ hres, hw' ▸ hres⟩

/-! ### The two forms of a shift -/

/-- A shift to the right drops bit 0 and puts a 0 in at bit 15 (40_register_alu.md R81). -/
theorem shiftRight_eq_append (v : Word) :
    shiftRight v = ((0#1 ++ v.extractLsb' 1 15 : BitVec (1 + 15)).cast (by rfl)) := by
  apply BitVec.eq_of_getLsbD_eq
  intro i hi
  simp only [shiftRight, BitVec.getLsbD_ushiftRight, BitVec.getLsbD_cast, BitVec.getLsbD_append,
    BitVec.getLsbD_extractLsb']
  rcases Nat.lt_or_ge i 15 with h | h
  · simp [h]
  · simp [show ¬i < 15 by omega, show 1 + i = 16 by omega]

/-- A shift to the right halves the unsigned value. -/
theorem shiftRight_eq_half (v : Word) : shiftRight v = BitVec.ofNat 16 (v.toNat / 2) := by
  rw [← shiftRight_toNat, BitVec.ofNat_toNat, BitVec.setWidth_eq]

/-- A shift to the left drops bit 15 and puts a 0 in at bit 0 (40_register_alu.md R82). -/
theorem shiftLeft_eq_append (v : Word) :
    shiftLeft v = ((v.extractLsb' 0 15 ++ 0#1 : BitVec (15 + 1)).cast (by rfl)) := by
  apply BitVec.eq_of_getLsbD_eq
  intro i hi
  simp only [shiftLeft, BitVec.getLsbD_shiftLeft, BitVec.getLsbD_cast, BitVec.getLsbD_append,
    BitVec.getLsbD_extractLsb']
  rcases Nat.eq_zero_or_pos i with h | h
  · simp [h]
  · simp [hi, show ¬i < 1 by omega, show i - 1 < 15 by omega]

/-! ### The statements -/

/-- Settles O19: `IR[5:3]` is the unused field, and SHR ends with N and Z kept. -/
theorem shrShiftsInZeroFromTheLeft : Obligations.ShrShiftsInZeroFromTheLeft :=
  ⟨fun d x b => ⟨decode_pack .shr d x b, encode_instr_of_sa_unused (o := .shr) d x b rfl⟩,
    fun rd rb s => regResultKeep_of_exec_of_eq (exec_shr rd rb s) (shiftRight_eq_append _)
      (shiftRight_eq_half _)⟩

/-- Settles O20: `IR[5:3]` is the unused field, and SHL ends with N and Z kept. -/
theorem shlShiftsInZeroFromTheRight : Obligations.ShlShiftsInZeroFromTheRight :=
  ⟨fun d x b => ⟨decode_pack .shl d x b, encode_instr_of_sa_unused (o := .shl) d x b rfl⟩,
    fun rd rb s => regResultKeep_of_exec_of_eq (exec_shl rd rb s) (shiftLeft_eq_append _)
      (shiftLeft_eq_add _)⟩

end Sys2Proof.Machine
end

section
/-! PROOFS. BRZ, BRN and JMP (43_branch_jump.md R100 to R103): the branch target, what each instruction executes
to, and the statements about them. -/

namespace Sys2Proof.Machine

/-! ### The branch target -/

/-- The offset word of an AD in range is that number as a word. -/
theorem branchOffset_eq_ofInt {ad : Int} (hlo : -32 ≤ ad) (hhi : ad ≤ 31) :
    branchOffset ad = BitVec.ofInt 16 ad := by
  rw [← BitVec.ofInt_toInt (x := branchOffset ad), branchOffset_toInt hlo hhi]

/-- Settles O28: the offset is AD as a word, and the sum of words is the sum modulo 2^16. -/
theorem branchTargetWrapsModuloWord : Obligations.BranchTargetWrapsModuloWord := by
  intro s ad hlo hhi
  rw [State.branchTarget, branchOffset_eq_ofInt hlo hhi, BitVec.toNat_add, BitVec.toNat_ofInt]
  omega

/-! ### What each instruction executes to -/

section Execution

variable (ra : Reg) (ad : Int) (s : State)

theorem exec_brz :
    exec (.brz ra ad) s = .next (s.branchIf (zeroFlag (s.readReg ra)) (s.readReg ra) ad) := rfl

theorem exec_brn :
    exec (.brn ra ad) s = .next (s.branchIf (negFlag (s.readReg ra)) (s.readReg ra) ad) := rfl

theorem exec_jmp : exec (.jmp ra) s = .next (s.setPc (s.readReg ra)) := rfl

end Execution

/-- What an instruction that ends in a conditional branch does, with the condition as a proposition. -/
theorem branch_of_exec {i : Instr} {s : State} {b : Bool} {v : Word} {ad : Int} {P : Prop}
    (h : exec i s = .next (s.branchIf b v ad)) (hb : b = true ↔ P) (hlo : -32 ≤ ad) (hhi : ad ≤ 31) :
    ∃ t, exec i s = .next t ∧ SetsNZ t v ∧ (P → t.pc = s.pc + BitVec.ofInt 16 ad) ∧
      (¬ P → t.pc = s.pc + 1#16) ∧ KeepsRegs s t ∧ KeepsMem s t ∧ KeepsLaunch s t := by
  obtain ⟨hregs, hnz, hmem, hlaunch, hpc⟩ := s.branchIf_spec v b ad
  refine ⟨_, h, hnz, fun hP => ?_, fun hP => ?_, hregs, hmem, hlaunch⟩
  · rw [hpc, if_pos (hb.2 hP), State.branchTarget, branchOffset_eq_ofInt hlo hhi]
  · exact hpc.trans (if_neg (mt hb.1 hP))

/-! ### The statements -/

/-- Settles O25: BRZ uses every field, and its test is that of a zero word. -/
theorem brzBranchesWhenRegisterIsZero : Obligations.BrzBranchesWhenRegisterIsZero :=
  ⟨fun l a r => ⟨decode_pack .brz l a r, encode_instr_of_all_used (o := .brz) l a r rfl⟩,
    fun ra ad s => branch_of_exec (exec_brz ra ad s) (by rw [zeroFlag, beq_iff_eq])⟩

/-- Settles O26: BRN uses every field, and its test is that of a negative two's complement number. -/
theorem brnBranchesWhenRegisterIsNegative : Obligations.BrnBranchesWhenRegisterIsNegative :=
  ⟨fun l a r => ⟨decode_pack .brn l a r, encode_instr_of_all_used (o := .brn) l a r rfl⟩,
    fun ra ad s => branch_of_exec (exec_brn ra ad s) (by rw [negFlag_eq_toInt, decide_eq_true_eq])⟩

/-- JMP is encoded with 0 in `IR[8:6]` and `IR[2:0]`, the fields it does not use (30_encoding.md R60). -/
theorem encode_jmp_of_field (a : BitVec 3) :
    encode (.jmp (regOfField a)) = pack Opcode.jmp.bits 0#3 a 0#3 := by
  rw [encode, fieldOfReg_regOfField]

/-- Settles O27: both halves of AD are unused, and JMP writes the program counter only. -/
theorem jmpLoadsThePcFromTheRegister : Obligations.JmpLoadsThePcFromTheRegister :=
  ⟨fun x a x' => ⟨decode_pack .jmp x a x', encode_jmp_of_field a⟩,
    fun ra s => ⟨_, exec_jmp ra s, State.setPc_pc .., State.readReg_congr (State.setPc_regs ..),
      ⟨State.setPc_n .., State.setPc_z ..⟩, State.memRead_congr (State.setPc_dm ..),
      State.setPc_im .., State.setPc_endPc ..⟩⟩

end Sys2Proof.Machine
end

section
/-! PROOFS. The idioms of 30_encoding.md section 4 and the corner cases of SHL and ADI. -/

namespace Sys2Proof.Machine

variable (s : State)

/-- Writing back to a register what it holds changes no register. -/
theorem keepsRegs_of_writesOnlyReg {s t : State} {r : Reg} (h : WritesOnlyReg s t r (s.readReg r)) :
    KeepsRegs s t := by
  obtain ⟨hself, hother⟩ := h
  intro q
  by_cases hq : q = r
  · rw [hq, hself]
  · exact hother q hq

/-- The state after a zero result: 0 in the register, N = 0 and Z = 1. -/
theorem zero_result_of_exec {i : Instr} {s : State} {r : Reg} {v : Word}
    (h : exec i s = .next (s.resultNZ r v)) (hv : v = 0x0000#16) :
    ∃ t, exec i s = .next t ∧ t.readReg r = 0x0000#16 ∧ t.n = false ∧ t.z = true := by
  subst hv
  exact ⟨_, h, State.readReg_writeReg_self s _ r, rfl, rfl⟩

/-- MOVB of a register to itself is no operation. -/
theorem movb_self_completes (r : Reg) : ∃ t, exec (.movb r r) s = .next t ∧
    KeepsRegs s t ∧ KeepsNZ s t ∧ KeepsMem s t ∧ KeepsLaunch s t ∧ t.pc = s.pc + 1#16 := by
  obtain ⟨t, ht, hreg, hnz, hpc, hmem, hlaunch⟩ := regResultKeep_of_exec (exec_movb r r s)
  exact ⟨t, ht, keepsRegs_of_writesOnlyReg hreg, hnz, hmem, hlaunch, hpc⟩

/-- NOT and then INC of a register to itself is the two's complement negation. -/
theorem not_then_inc_negates (r : Reg) : ∃ t u, exec (.not r r) s = .next t ∧ exec (.inc r r) t = .next u ∧
    u.readReg r = - s.readReg r := by
  obtain ⟨t, ht, ⟨hnot, -⟩, -⟩ := regResultNZ_of_exec (exec_not r r s)
  obtain ⟨u, hu, ⟨hinc, -⟩, -⟩ := regResultNZ_of_exec (exec_inc r r t)
  exact ⟨t, u, ht, hu, by rw [hinc, hnot, BitVec.neg_eq_not_add]⟩

/-- The two ends of an instruction differ at most in N and Z. -/
theorem sameButNZ_resultKeep_resultNZ (rd : Reg) (v : Word) :
    SameButNZ (s.resultKeep rd v) (s.resultNZ rd v) :=
  ⟨rfl, rfl, rfl, rfl, rfl⟩

/-- SHL is ADD of a register to itself, but for N and Z. -/
theorem shl_sameButNZ_add (rd rb : Reg) : ∃ t u, exec (.shl rd rb) s = .next t ∧
    exec (.add rd rb rb) s = .next u ∧ SameButNZ t u := by
  refine ⟨_, _, exec_shl rd rb s, exec_add rd rb rb s, ?_⟩
  rw [shiftLeft_eq_add]
  exact sameButNZ_resultKeep_resultNZ s rd _

/-- ADI with operand 0 is MOVA. -/
theorem exec_adi_zero (rd ra : Reg) : exec (.adi rd ra 0) s = exec (.mova rd ra) s := by
  rw [exec_adi, exec_mova, immediate_eq_ofNat (by decide), BitVec.add_zero]

/-- Settles O50, idiom by idiom. -/
theorem idiomsDoWhatTheyAreFor : Obligations.IdiomsDoWhatTheyAreFor :=
  ⟨fun r s => movb_self_completes s r,
    fun r s => ⟨zero_result_of_exec (exec_xor r r r s) BitVec.xor_self,
      zero_result_of_exec (exec_sub r r r s) (BitVec.sub_self _)⟩,
    fun r s => not_then_inc_negates s r, fun rd rb s => shl_sameButNZ_add s rd rb,
    fun rd ra s => exec_adi_zero s rd ra⟩

end Sys2Proof.Machine
end

section
/-! PROOFS. The data memory and the launch: the canonical form has one list for each content, every content has a
list of that form, and where a program has its words (20_memory.md section 1, 70_reset_and_hazards.md R130). -/

namespace Sys2Proof.Machine

/-! ### One list for each content -/

/-- Nothing is listed below the first address of a memory in canonical form. -/
theorem Memory.read_below_head {k a : Nat} {w : Word} {m : Memory} (h : Memory.wf ((k, w) :: m) = true)
    (ha : a < k) : Memory.read ((k, w) :: m) a = Config.unlistedWord := by
  obtain ⟨-, -, hm⟩ := (Memory.wf_cons k w m).1 h
  rw [Memory.read_cons, if_neg (by omega)]
  exact Memory.read_of_wfAbove hm (by omega)

/-- The first address of a memory in canonical form exists and reads as a listed word. -/
theorem Memory.read_head_ne {k : Nat} {w : Word} {m : Memory} (h : Memory.wf ((k, w) :: m) = true) :
    k < Config.memWords ∧ Memory.read ((k, w) :: m) k ≠ Config.unlistedWord := by
  obtain ⟨hk, hw, -⟩ := (Memory.wf_cons k w m).1 h
  exact ⟨hk, by rwa [Memory.read_cons, if_pos rfl]⟩

/-- If two memories in canonical form read the same, neither begins below the other. -/
theorem Memory.head_le_of_read_eq {k k' : Nat} {w w' : Word} {m m' : Memory}
    (h : Memory.wf ((k, w) :: m) = true) (h' : Memory.wf ((k', w') :: m') = true)
    (hread : ∀ a, a < Config.memWords → Memory.read ((k, w) :: m) a = Memory.read ((k', w') :: m') a) :
    k' ≤ k := by
  by_contra hlt
  obtain ⟨hk, hne⟩ := Memory.read_head_ne h
  rw [hread k hk] at hne
  exact hne (Memory.read_below_head h' (by omega))

/-- A memory in canonical form is determined by the words it reads as. -/
theorem Memory.eq_of_read_eq {m m' : Memory} (h : m.wf = true) (h' : m'.wf = true)
    (hread : ∀ a, a < Config.memWords → m.read a = m'.read a) : m = m' := by
  induction m generalizing m' with
  | nil =>
    cases m' with
    | nil => rfl
    | cons c' m' =>
      obtain ⟨hk', hne⟩ := Memory.read_head_ne h'
      exact absurd (hread _ hk').symm hne
  | cons c m ih =>
    obtain ⟨k, w⟩ := c
    cases m' with
    | nil =>
      obtain ⟨hk, hne⟩ := Memory.read_head_ne h
      exact absurd (hread k hk) hne
    | cons c' m' =>
      obtain ⟨k', w'⟩ := c'
      have hkk : k = k' := Nat.le_antisymm
        (Memory.head_le_of_read_eq h' h fun a ha => (hread a ha).symm) (Memory.head_le_of_read_eq h h' hread)
      subst hkk
      obtain ⟨hk, -, hm⟩ := (Memory.wf_cons k w m).1 h
      obtain ⟨-, -, hm'⟩ := (Memory.wf_cons k w' m').1 h'
      have hw : w = w' := by simpa [Memory.read_cons] using hread k hk
      have htail : ∀ a, a < Config.memWords → Memory.read m a = Memory.read m' a := by
        intro a ha
        by_cases hak : k = a
        · rw [Memory.read_of_wfAbove hm hak.ge, Memory.read_of_wfAbove hm' hak.ge]
        · simpa [Memory.read_cons, hak] using hread a ha
      rw [hw, ih (Memory.wf_of_wfAbove hm) (Memory.wf_of_wfAbove hm') htail]

/-- Settles O40: by induction on the two lists, whose heads are the lowest listed addresses. -/
theorem canonicalMemoriesReadingTheSameAreEqual : Obligations.CanonicalMemoriesReadingTheSameAreEqual :=
  fun _ _ h h' hread => Memory.eq_of_read_eq h h' hread

/-! ### A list for each content -/

/-- The first `n` data words can be given any content, in canonical form: they are written one by one. -/
theorem Memory.exists_wf_read_eq (f : Nat → Word) (n : Nat) (hn : n ≤ Config.memWords) :
    ∃ m : Memory, m.wf = true ∧ ∀ a, a < n → m.read a = f a := by
  induction n with
  | zero => exact ⟨[], rfl, fun a ha => absurd ha (Nat.not_lt_zero a)⟩
  | succ n ih =>
    obtain ⟨m, hwf, hread⟩ := ih (by omega)
    refine ⟨m.write n (f n), Memory.wf_write (f n) hn hwf, fun a ha => ?_⟩
    by_cases han : a = n
    · rw [han, Memory.read_write_self]
    · rw [Memory.read_write_ne m (f n) han, hread a (by omega)]

/-- Every content of the data memory is that of a list in canonical form. -/
theorem Memory.exists_wf_of_content (f : Word → Word) :
    ∃ m : Memory, m.wf = true ∧ ∀ a : Word, m.read a.toNat = f a := by
  obtain ⟨m, hwf, hread⟩ :=
    Memory.exists_wf_read_eq (fun k => f (BitVec.ofNat 16 k)) Config.memWords (Nat.le_refl _)
  refine ⟨m, hwf, fun a => ?_⟩
  rw [hread a.toNat a.isLt, BitVec.ofNat_toNat, BitVec.setWidth_eq]

/-! ### Launches -/

/-- Settles O39: the data memory is the list of its content, and every other field is given as it is. -/
theorem everyStartStateIsALaunch : Obligations.EveryStartStateIsALaunch := by
  intro f g n z p resetPc endPc hp
  obtain ⟨m, hwf, hread⟩ := Memory.exists_wf_of_content f
  refine ⟨⟨p, resetPc, endPc, m, Vector.ofFn g, n, z⟩, ?_, hread, fun r => ?_, rfl, rfl, rfl, rfl, rfl⟩
  · simp [Launch.wf, hp, hwf]
  · simp [State.readReg, State.ofLaunch, Vector.get_eq_getElem]

/-- A well-formed launch starts in a state that meets the invariant. -/
theorem inv_ofLaunch {l : Launch} (h : l.wf = true) : (State.ofLaunch l).Inv := by
  obtain ⟨hprogram, hdm⟩ := Bool.and_eq_true_iff.1 h
  exact ⟨hdm, hprogram⟩

/-- Settles O38: the reset state is that of a launch, which is well-formed. -/
theorem resetAndLaunchesMeetTheInvariant : Obligations.ResetAndLaunchesMeetTheInvariant :=
  ⟨inv_ofLaunch (by decide : Launch.reset.wf = true), rfl, fun _ h => ⟨inv_ofLaunch h, rfl⟩⟩

/-! ### Instruction memory -/

/-- In a program that does not wrap, the address of the word with index `k` is the base plus `k`. -/
theorem Program.toNat_eq_add_iff {p : Program} {a : Word} {k : Nat} (h : p.wf = true)
    (hk : k < p.words.length) : a.toNat = p.base.toNat + k ↔ a = p.base + BitVec.ofNat 16 k := by
  have hfit : p.base.toNat + p.words.length ≤ 65536 := of_decide_eq_true h
  have hsum : (p.base + BitVec.ofNat 16 k).toNat = p.base.toNat + k := by
    rw [BitVec.toNat_add, BitVec.toNat_ofNat]
    omega
  rw [← hsum, BitVec.toNat_inj]

/-- A program that does not wrap has a word exactly at the base plus its index. -/
theorem Program.read_eq_some_of_wf {p : Program} {a w : Word} (h : p.wf = true) :
    p.read a = some w ↔ ∃ k, p.words[k]? = some w ∧ a = p.base + BitVec.ofNat 16 k := by
  rw [Program.read_eq_some]
  refine exists_congr fun k => and_congr_right fun hk => ?_
  obtain ⟨hlt, -⟩ := List.getElem?_eq_some_iff.1 hk
  exact Program.toNat_eq_add_iff h hlt

/-- A program that does not wrap has no word exactly where none of its words is. -/
theorem Program.read_eq_none_of_wf {p : Program} {a : Word} (h : p.wf = true) :
    p.read a = none ↔ ∀ k, k < p.words.length → a ≠ p.base + BitVec.ofNat 16 k := by
  rw [Option.eq_none_iff_forall_ne_some]
  constructor
  · rintro hnone k hk ha
    exact hnone _ ((Program.read_eq_some_of_wf h).2 ⟨k, List.getElem?_eq_getElem hk, ha⟩)
  · intro hne w hw
    obtain ⟨k, hk, ha⟩ := (Program.read_eq_some_of_wf h).1 hw
    obtain ⟨hlt, -⟩ := List.getElem?_eq_some_iff.1 hk
    exact hne k hlt ha

/-- Settles O36: without a wrap, the sum of base and index is the sum of words. -/
theorem fetchReadsExactlyTheProgram : Obligations.FetchReadsExactlyTheProgram :=
  fun _ _ h => ⟨fun _ => Program.read_eq_some_of_wf h, Program.read_eq_none_of_wf h⟩

end Sys2Proof.Machine
end

section
/-! PROOFS. One step (10_state.md section 7): the condition of each outcome, and what a step keeps. -/

namespace Sys2Proof.Machine

/-! ### The condition of each outcome -/

variable {s t : State}

theorem step_eq_refused_iff {q : Refusal} : step s = .refused q ↔ q = .runEnded ∧ s.pc = s.endPc := by
  rcases step_cases s with ⟨hpc, -, hs⟩ | ⟨hpc, f, -, -, hs⟩ | ⟨hpc, i, -, -, hs⟩
  · simp [hs, hpc, eq_comm]
  · simp [hs, hpc]
  · simp [hs, hpc, exec_eq_after]

theorem step_eq_fault_iff {f : Fault} : step s = .fault f ↔ s.pc ≠ s.endPc ∧ s.fetchInstr = .error f := by
  rcases step_cases s with ⟨hpc, -, hs⟩ | ⟨hpc, g, hg, -, hs⟩ | ⟨hpc, i, hi, -, hs⟩
  · simp [hs, hpc]
  · simp [hs, hpc, hg]
  · simp [hs, hpc, hi, exec_eq_after]

theorem step_completes_iff : (∃ t, step s = .next t) ↔ s.pc ≠ s.endPc ∧ ∃ i, s.fetchInstr = .ok i := by
  rcases step_cases s with ⟨hpc, -, hs⟩ | ⟨hpc, g, hg, -, hs⟩ | ⟨hpc, i, hi, -, hs⟩
  · simp [hs, hpc]
  · simp [hs, hg]
  · simp [hs, hpc, hi, exec_eq_after]

/-- A word decodes to an error exactly when its opcode bits are none of the 19. -/
theorem exists_decode_eq_error {ir : Word} :
    (∃ e, decode ir = .error e) ↔ ∀ o : Opcode, o.bits ≠ opcodeField ir := by
  rw [← Opcode.ofBits_eq_none, decode]
  cases Opcode.ofBits (opcodeField ir) <;> simp

/-- A word decodes to an instruction exactly when its opcode bits are those of an opcode. -/
theorem exists_decode_eq_ok {ir : Word} : (∃ i, decode ir = .ok i) ↔ ∃ o : Opcode, o.bits = opcodeField ir := by
  constructor
  · rintro ⟨i, hi⟩
    obtain ⟨o, ho, -⟩ := decode_eq_ok.1 hi
    exact ⟨o, ho.symm⟩
  · rintro ⟨o, ho⟩
    exact ⟨_, decode_eq_ok.2 ⟨o, ho.symm, rfl⟩⟩

/-- Settles O35: the end-of-run test, then the fetch, then the decode. -/
theorem stepOutcomesAreExactlyThese : Obligations.StepOutcomesAreExactlyThese := by
  refine fun s => ⟨fun q => step_eq_refused_iff, fun f => ?_, ?_⟩
  · rw [step_eq_fault_iff, State.fetchInstr_eq_error]
    refine and_congr_right fun _ => or_congr and_comm (exists_congr fun ir => ?_)
    constructor
    · rintro ⟨e, hir, he, hf⟩
      exact ⟨hf, hir, exists_decode_eq_error.1 ⟨e, he⟩⟩
    · rintro ⟨hf, hir, hop⟩
      obtain ⟨e, he⟩ := exists_decode_eq_error.2 hop
      exact ⟨e, hir, he, hf⟩
  · rw [step_completes_iff]
    refine and_congr_right fun _ => ?_
    constructor
    · rintro ⟨i, hi⟩
      obtain ⟨ir, hir, hdecode⟩ := State.fetchInstr_eq_ok.1 hi
      obtain ⟨o, ho⟩ := exists_decode_eq_ok.1 ⟨i, hdecode⟩
      exact ⟨ir, o, hir, ho⟩
    · rintro ⟨ir, o, hir, ho⟩
      obtain ⟨i, hi⟩ := exists_decode_eq_ok.2 ⟨o, ho⟩
      exact ⟨i, State.fetchInstr_eq_ok.2 ⟨ir, hir, hi⟩⟩

/-- The next instruction is the one decoded at `pc`, unless the run has ended. -/
theorem nextInstr_eq_some_of_decode {ir : Word} {i : Instr} (hpc : s.pc ≠ s.endPc)
    (hir : s.iMemRead s.pc = some ir) (hi : decode ir = .ok i) : s.nextInstr = some i := by
  have hfetch : s.fetchInstr = .ok i := State.fetchInstr_eq_ok.2 ⟨ir, hir, hi⟩
  simp [State.nextInstr, State.atEnd, hpc, hfetch]

/-- Settles O34: the step executes the next instruction, which is the one decoded. -/
theorem stepRunsTheDecodedInstruction : Obligations.StepRunsTheDecodedInstruction :=
  fun _ _ _ hpc hir hi => step_of_nextInstr (nextInstr_eq_some_of_decode hpc hir hi)

/-! ### A word placed from outside -/

/-- A word as the opcode table numbers it is that word. -/
theorem tableWord_toNat (w : Word) : tableWord 16 w.toNat = w := by
  rw [tableWord, Nat.mod_eq_of_lt w.isLt, BitVec.ofNat_toNat, BitVec.setWidth_eq]

/-- Where a word is placed the run has not ended. -/
theorem placeWord_pc_ne_endPc (s : State) (w : Word) : (s.placeWord w).pc ≠ (s.placeWord w).endPc := by
  have hsucc : s.pc ≠ s.pc + 1 := by bv_omega
  simp only [State.placeWord]
  split
  · exact hsucc
  · next h => exact Ne.symm h

/-- Settles O49: the placed word is the one fetched, and it decodes to the instruction it encodes. -/
theorem placedWordsRunAsTheirInstruction : Obligations.PlacedWordsRunAsTheirInstruction := by
  intro i s hi
  rw [State.withFetchWord, tableWord_toNat]
  refine ⟨?_, State.placeWord_regs .., State.placeWord_pc .., ⟨State.placeWord_n .., State.placeWord_z ..⟩,
    State.placeWord_dm ..⟩
  have hfetch : (s.placeWord (encode i)).iMemRead (s.placeWord (encode i)).pc = some (encode i) := by
    rw [State.iMemRead, State.placeWord_im, State.placeWord_pc, Program.read_place]
  exact stepRunsTheDecodedInstruction _ _ i (placeWord_pc_ne_endPc s _) hfetch (decode_encode hi)

/-! ### What a step keeps -/

/-- A step to a next state gives the state after the next instruction. -/
theorem eq_after_of_step (h : step s = .next t) : ∃ i, s.nextInstr = some i ∧ t = s.after i := by
  obtain ⟨i, hi, ht⟩ := exec_of_step h
  exact ⟨i, hi, eq_after_of_exec ht⟩

/-- If there is a next instruction, the step gives the state after it. -/
theorem step_eq_after {i : Instr} (h : s.nextInstr = some i) : step s = .next (s.after i) := by
  rw [step_of_nextInstr h, exec_eq_after]

/-- Every instruction keeps the data memory in canonical form: ST writes at an address that exists. -/
theorem dmAfter_wf (i : Instr) (h : s.dm.wf = true) : (s.dmAfter i).wf = true := by
  cases i with
  | st ra rb => exact Memory.wf_write _ (s.readReg ra).isLt h
  | _ => exact h

/-- Settles O37: an instruction keeps the canonical form and does not touch the program. -/
theorem stepKeepsTheInvariant : Obligations.StepKeepsTheInvariant := by
  rintro s t ⟨hdm, him⟩ h
  obtain ⟨i, -, rfl⟩ := eq_after_of_step h
  exact ⟨dmAfter_wf i hdm, him⟩

/-- A step that does not store to an address keeps the word there. -/
theorem memRead_step_of_not_stored {a : Word} (h : step s = .next t)
    (ha : ∀ ra rb, s.nextInstr = some (.st ra rb) → s.readReg ra ≠ a) : t.memRead a = s.memRead a := by
  obtain ⟨i, hi, rfl⟩ := eq_after_of_step h
  exact memRead_after_of_not_stored s fun ra rb hst => ha ra rb (hst ▸ hi)

/-- A step that executes ST leaves the word of its data register at the address it stores to. -/
theorem memRead_step_of_st {ra rb : Reg} (hi : s.nextInstr = some (.st ra rb)) (h : step s = .next t) :
    t.memRead (s.readReg ra) = s.readReg rb := by
  rw [step_eq_after hi] at h
  cases h
  exact memRead_after_st s ra rb

/-- Settles O41: if the step did not store to the address, the word would be as before. -/
theorem dataMemoryChangesOnlyByStore : Obligations.DataMemoryChangesOnlyByStore := by
  intro s t a h hne
  by_contra hno
  refine hne (memRead_step_of_not_stored h fun ra rb hi ha => hno ⟨ra, rb, hi, ha, ?_⟩)
  rw [← ha, memRead_step_of_st hi h]

/-- Status bits that describe a word are not both 1: a zero word is not negative. -/
theorem SetsNZ.not_both {v : Word} (h : SetsNZ t v) : ¬ (t.n = true ∧ t.z = true) := by
  obtain ⟨hn, hz⟩ := h
  rintro ⟨hn1, hz1⟩
  rw [hn, hz.1 hz1] at hn1
  exact absurd hn1 (by decide)

/-- Settles O45: an instruction describes its value in N and Z, or keeps them. -/
theorem statusBitsAreNeverBothSet : Obligations.StatusBitsAreNeverBothSet := by
  refine ⟨fun s t h hboth => ?_, fun i s t hnz h => ?_⟩
  · obtain ⟨i, -, rfl⟩ := eq_after_of_step h
    cases hnz : i.writesNZ with
    | true => exact (after_setsNZ s hnz).not_both
    | false =>
      obtain ⟨hn, hz⟩ := after_keepsNZ s hnz
      rwa [hn, hz]
  · obtain rfl := eq_after_of_exec h
    exact (after_setsNZ s hnz).not_both

end Sys2Proof.Machine
end

section
/-! PROOFS. Runs of any number of steps: that they keep the program, that N and Z do not influence them, that a load
returns the latest store, and how they stop or repeat. -/

namespace Sys2Proof.Machine

variable {s t u : State}

/-! ### The program -/

/-- A step keeps the program and END_PC. -/
theorem step_keepsLaunch (h : step s = .next t) : KeepsLaunch s t := by
  obtain ⟨i, -, rfl⟩ := eq_after_of_step h
  exact after_keepsLaunch s i

/-- Settles O43: what every step keeps, every run keeps, and the fetch reads the program only. -/
theorem runsNeverChangeTheProgram : Obligations.RunsNeverChangeTheProgram := by
  intro k s t h
  have hstep : ∀ u v, KeepsLaunch s u → step u = .next v → KeepsLaunch s v := by
    rintro u v ⟨him, hend⟩ huv
    obtain ⟨him', hend'⟩ := step_keepsLaunch huv
    exact ⟨him'.trans him, hend'.trans hend⟩
  obtain ⟨him, hend⟩ := run_keeps hstep ⟨rfl, rfl⟩ h
  exact ⟨⟨him, hend⟩, fun a => by rw [State.iMemRead, him, State.iMemRead]⟩

/-! ### N and Z -/

/-- The end-of-run test does not read N and Z. -/
theorem SameButNZ.atEnd (h : SameButNZ s t) : s.atEnd = t.atEnd := by
  obtain ⟨-, hpc, -, -, hend⟩ := h
  rw [State.atEnd, State.atEnd, hpc, hend]

/-- The fetch and decode do not read N and Z. -/
theorem SameButNZ.fetchInstr (h : SameButNZ s t) : s.fetchInstr = t.fetchInstr := by
  obtain ⟨-, hpc, -, him, -⟩ := h
  have hir : s.iMemRead s.pc = t.iMemRead t.pc := by rw [State.iMemRead, State.iMemRead, hpc, him]
  unfold State.fetchInstr
  rw [hir, hpc]

/-- States that differ at most in N and Z have the same next instruction. -/
theorem SameButNZ.nextInstr (h : SameButNZ s t) : s.nextInstr = t.nextInstr := by
  unfold State.nextInstr
  rw [h.atEnd, h.fetchInstr]

/-- One step of states that differ at most in N and Z has outcomes that differ at most there. -/
theorem SameButNZ.step (h : SameButNZ s t) : SameOutcomeButNZ (step s) (step t) := by
  unfold Machine.step
  rw [h.atEnd, h.fetchInstr]
  cases t.atEnd with
  | true => rfl
  | false =>
    cases t.fetchInstr with
    | error f => rfl
    | ok i =>
      simp only [exec_eq_after]
      exact h.after i

/-- Settles O44, by induction on the number of steps: one step keeps the two states alike or stops both alike. -/
theorem statusBitsNeverInfluenceARun : Obligations.StatusBitsNeverInfluenceARun := by
  intro k
  induction k with
  | zero => exact fun s t h => h
  | succ k ih =>
    intro s t h
    have hstep := h.step
    cases hs : step s <;> cases ht : step t <;> rw [hs, ht] at hstep
    case next.next s' t' =>
      rw [run_succ_next k hs, run_succ_next k ht]
      exact ih s' t' hstep
    case fault.fault f g =>
      rw [run_succ_fault k hs, run_succ_fault k ht]
      exact hstep
    case refused.refused q r =>
      rw [run_succ_refused k hs, run_succ_refused k ht]
      exact hstep
    all_goals exact hstep.elim

/-! ### Loads and stores -/

/-- A run that never stores to an address keeps the word there. -/
theorem memRead_run_of_noStoreTo {a : Word} {k : Nat} (hno : NoStoreTo a k s) (h : run k s = .next u) :
    u.memRead a = s.memRead a := by
  induction k generalizing s with
  | zero => cases h; rfl
  | succ k ih =>
    obtain ⟨t, ht, hk⟩ := step_of_run_succ h
    obtain ⟨hfirst, hrest⟩ := hno
    rw [ih (hrest t ht) hk, memRead_step_of_not_stored ht hfirst]

/-- Settles O42: the store puts the word there, the run keeps it, and the load reads it. -/
theorem loadReturnsTheLatestStore : Obligations.LoadReturnsTheLatestStore := by
  intro s t u k ra rb rd qa hst hstep hno hrun hld haddr
  refine ⟨_, step_eq_after hld, ?_⟩
  calc (u.after (.ld rd qa)).readReg rd = u.memRead (u.dataAddress qa) := readReg_after_of_writes u rfl
    _ = u.memRead (s.dataAddress ra) := by rw [haddr]
    _ = t.memRead (s.dataAddress ra) := memRead_run_of_noStoreTo hno hrun
    _ = s.readReg rb := memRead_step_of_st hst hstep

/-! ### How a run stops -/

/-- Settles O48: a run's first step that is no next state is its outcome. -/
theorem stoppedRunsStayStopped : Obligations.StoppedRunsStayStopped :=
  ⟨fun _ _ k h => run_succ_fault k h, fun _ k h => run_succ_refused k (step_eq_refused_iff.2 ⟨rfl, h⟩)⟩

/-- Settles O47: JMP changes the program counter only, so the next step tests END_PC and fetches there. -/
theorem jumpOutsideTheProgramFaultsNextStep : Obligations.JumpOutsideTheProgramFaultsNextStep := by
  intro s ra hi
  have hstep := step_eq_after hi
  refine ⟨_, hstep, rfl, fun hend => ⟨?_, hend⟩, fun hend hnone => ?_⟩
  · rw [run_succ_next 0 hstep, run_zero]
  · rw [run_succ_next 1 hstep]
    exact run_succ_fault 0 (step_eq_fault_iff.2 ⟨hend, State.fetchInstr_eq_error.2 (.inl ⟨hnone, rfl⟩)⟩)

/-! ### Fixed points -/

/-- A state that steps to itself is the outcome of every run from it. -/
theorem run_of_step_self (h : step t = .next t) (k : Nat) : run k t = .next t := by
  induction k with
  | zero => rfl
  | succ k ih => rw [run_succ_next k h, ih]

/-- A state that steps to one that repeats for ever is safe. -/
theorem safe_of_step_of_run (h : step s = .next t) (ht : ∀ k, run k t = .next t) : s.Safe := by
  intro k f hf
  cases k with
  | zero => cases hf
  | succ k =>
    rw [run_succ_next k h, ht k] at hf
    cases hf

/-- States that differ at most in N and Z and have the same N and Z are the same. -/
theorem SameButNZ.eq_of_keepsNZ (h : SameButNZ s t) (hnz : KeepsNZ t s) : s = t := by
  obtain ⟨hregs, hpc, hdm, him, hend⟩ := h
  obtain ⟨hn, hz⟩ := hnz
  cases s
  cases t
  simp_all

/-- An instruction that changes at most N and Z does nothing when it is executed again: it works on the same
value. -/
theorem after_after (i : Instr) (h : SameButNZ s (s.after i)) : (s.after i).after i = s.after i := by
  refine ((h.after i).eq_of_keepsNZ ?_).symm
  have hvalue : s.valueOf i = (s.after i).valueOf i := h.valueOf i
  cases hnz : i.writesNZ with
  | true =>
    refine ⟨?_, ?_⟩
    · rw [after_n_of_writesNZ _ hnz, after_n_of_writesNZ _ hnz, hvalue]
    · rw [after_z_of_writesNZ _ hnz, after_z_of_writesNZ _ hnz, hvalue]
  | false =>
    obtain ⟨hn, hz⟩ := after_keepsNZ (s.after i) hnz
    exact ⟨hn.symm, hz.symm⟩

/-- BRZ and BRN that are taken with AD 0, and JMP to its own address, change at most N and Z. -/
theorem sameButNZ_after {i : Instr} (hw : i.writes = none) (hst : ∀ ra rb, i ≠ .st ra rb)
    (hpc : s.pcAfter i = s.pc) : SameButNZ s (s.after i) :=
  ⟨(after_regs_of_writes_none s hw).symm, hpc.symm, (dmAfter_of_not_st s hst).symm, rfl, rfl⟩

/-- AD 0 reaches the branch itself. -/
theorem branchTarget_zero (s : State) : s.branchTarget 0 = s.pc :=
  BitVec.add_zero s.pc

/-- An instruction that changes at most N and Z is repeated for ever. -/
theorem repeats_of_sameButNZ {i : Instr} (hi : s.nextInstr = some i) (h : SameButNZ s (s.after i)) :
    ∃ t, step s = .next t ∧ SameButNZ s t ∧ (∀ k, run k t = .next t) ∧ s.Safe := by
  have hstep := step_eq_after hi
  have hself : step (s.after i) = .next (s.after i) := by
    rw [step_eq_after (h.nextInstr ▸ hi), after_after i h]
  have hrun := run_of_step_self hself
  exact ⟨_, hstep, h, hrun, safe_of_step_of_run hstep hrun⟩

/-- Settles O46: each of the three instructions leads to its own address. -/
theorem fixedPointsRepeatForEver : Obligations.FixedPointsRepeatForEver := by
  rintro s ra (⟨hi, hzero⟩ | ⟨hi, hneg⟩ | ⟨hi, hself⟩)
  · refine repeats_of_sameButNZ hi (sameButNZ_after rfl (by simp) ?_)
    simp [State.pcAfter, hzero, zeroFlag, branchTarget_zero]
  · refine repeats_of_sameButNZ hi (sameButNZ_after rfl (by simp) ?_)
    simp [State.pcAfter, negFlag_eq_toInt, hneg, branchTarget_zero]
  · exact repeats_of_sameButNZ hi (sameButNZ_after rfl (by simp) hself)

end Sys2Proof.Machine
end
